-- ==== Sys2Proof/Word.lean ====
section
/-! DEFINITION. The byte and the four integer widths (spec 00_scope.md R9, R13). -/

namespace Sys2Proof

/-- A byte is 8 bits (R13). -/
abbrev Byte := BitVec 8

/-- The width W of an operation: 8, 16, 32 or 64 bits, and no other (R9). -/
inductive Width where
  | w8 | w16 | w32 | w64
deriving DecidableEq, Repr

/-- W as a number of bits (R9). -/
def Width.bits : Width → Nat
  | .w8 => 8
  | .w16 => 16
  | .w32 => 32
  | .w64 => 64

end Sys2Proof
end

