-- ==== Sys2Proof/Config.lean ====
section
/-! DEFINITION. What a platform or a realization fixes, and the free values: constants without a body, so that nothing can be
proved about what they are (spec 00_scope.md R10, 92_eei_decisions.md, 93_implementation_defined.md). -/

namespace Sys2Proof

/-- How many instances the platform has beyond the first: P_INSTANCES - 1, OPEN (R10, D2). Notes/assumptions 2. -/
opaque Config.moreInstances : Nat

/-- P_INSTANCES, a natural that is at least 1 (R10, R147). -/
def Config.pInstances : Nat := Config.moreInstances + 1

/-- The platform has the instance named `k`: instances are named 0 to P_INSTANCES - 1 (R147: the platform names them). -/
def Config.hasInstance : Nat → Bool
  | 0 => true
  | k + 1 => decide (k < Config.moreInstances)

/-- LEN_BITS, the width of SLEN and DLEN in a realization, OPEN (R10, D12). Only `Sys2Proof.Machine.Request.issuable` of
Safety.lean reads it: the model takes lengths as unbounded naturals. Notes/assumptions 3. -/
opaque Config.lenBits : Nat

/-- The two byte orders a wrapper may choose (D13). -/
inductive Config.ByteOrder where
  | leastSignificantFirst
  | mostSignificantFirst
deriving DecidableEq, Repr, Inhabited

/-- VALUE_BYTE_ORDER, OPEN; the block neither reads nor writes it (R53), so no definition of the model does. Notes/assumptions 4. -/
opaque Config.valueByteOrder : Config.ByteOrder

/-- U8_FORM and its two choices: the generic loop or the length-specialised width-8 decoder (R10, R100, I2). -/
inductive Config.U8Form where
  | generic
  | specialised
deriving DecidableEq, Repr, Inhabited

/-- U8_FORM: the implementer's choice; the result is the same (R10). Notes/assumptions 24. -/
opaque Config.u8Form : Config.U8Form

/-- LONG_INPUT_VALIDATION: whether an input longer than maxDigits(W) also has its digits checked; the implementer's choice;
the result is the same (R10, R89). Notes/assumptions 24. -/
opaque Config.longInputValidation : Bool

/-- FREE VALUE. The n-th byte drawn for a DST byte of a COPY that a reset interrupted (R154, I7): nothing constrains it.
Notes/assumptions 15. -/
opaque Config.freeByte : Nat → Byte

end Sys2Proof
end

