-- ==== Sys2Proof/Syntax.lean ====
section
/-! DEFINITION. The nine commands of spec/opcode_table.json, and the lines of the assembler
(spec 30_encoding.md R68, R76 to R78). -/

namespace Sys2Proof

/-- The nine commands (R68). A command has no operand of its own: its operands stand in the request fields VAL, SRC and DST,
which the state holds (R27, R70). -/
inductive Instr where
  | parseU8
  | parseU16
  | parseU32
  | parseU64
  | copyU8
  | copyU16
  | copyU32
  | copyU64
  | digit
deriving DecidableEq, Repr

/-- `Bk[a:b]`: bytes a to b-1 of host buffer k (R77). -/
structure BufSlice where
  buf : Nat
  lo : Nat
  hi : Nat
deriving DecidableEq, Repr

/-- `<src>`: a string literal, given by its bytes, or a buffer slice (R77). -/
inductive SrcArg where
  | literal (bytes : List Byte)
  | slice (b : BufSlice)
deriving DecidableEq, Repr

/-- One line of assembly (R76). Numbers are the naturals the line writes; what fits is the assembler's check (R78). -/
inductive AsmLine where
  | parse (w : Width) (src : SrcArg)
  | copy (w : Width) (dst : BufSlice) (imm : Nat)
  | digit (b : Nat)
  | raw (cmd imm : Nat) (src : SrcArg) (dst : BufSlice)
deriving DecidableEq, Repr

end Sys2Proof
end

