-- ==== Sys2Proof/WellFormed.lean ====
section
/-! DEFINITION. What a well-formed term is (spec 30_encoding.md R78): the checks the assembler makes before it emits a command. -/

namespace Sys2Proof

/-- Every command is well formed: it is one of the nine of R68 and carries no operand that could be out of range (R70). -/
def Instr.wellFormed : Instr → Bool
  | .parseU8 | .parseU16 | .parseU32 | .parseU64 => true
  | .copyU8 | .copyU16 | .copyU32 | .copyU64 => true
  | .digit => true

/-- A slice is refused when b < a (R78). -/
def BufSlice.wellFormed (b : BufSlice) : Bool := decide (b.lo ≤ b.hi)

/-- A source operand: every byte sequence is legal (R73); a slice must be one. -/
def SrcArg.wellFormed : SrcArg → Bool
  | .literal _ => true
  | .slice b => b.wellFormed

/-- The assembler's refusals (R78): an imm of COPY.U<W> that is 2^W or more, a byte or cmd8 above 255, an imm64 of 2^64 or
more, a slice with b < a. -/
def AsmLine.wellFormed : AsmLine → Bool
  | .parse _ src => src.wellFormed
  | .copy w dst imm => dst.wellFormed && decide (imm < 2 ^ w.bits)
  | .digit b => decide (b ≤ 255)
  | .raw cmd imm src dst => decide (cmd ≤ 255) && decide (imm < 2 ^ 64) && src.wellFormed && dst.wellFormed

end Sys2Proof
end

