-- ==== Sys2Proof/Decode.lean ====
section
/-! DEFINITION. The 8-bit command word: its fields, its decoder and its encoder (spec 30_encoding.md R64 to R69, R74). -/

namespace Sys2Proof

/-- OP = CMD[7:6] (R64). -/
def opField (cmd : BitVec 8) : BitVec 2 := cmd.extractLsb' 6 2

/-- RSV = CMD[5:2] (R65). -/
def rsvField (cmd : BitVec 8) : BitVec 4 := cmd.extractLsb' 2 4

/-- WSEL = CMD[1:0] (R66). -/
def wselField (cmd : BitVec 8) : BitVec 2 := cmd.extractLsb' 0 2

/-- Why a command word is one of the 247 illegal values (R74). -/
inductive IllegalWord where
  /-- RSV is not 0b0000, whatever OP and WSEL hold: 240 values. -/
  | reservedBits
  /-- OP = 0b11: 0xC0 to 0xC3. -/
  | reservedOp
  /-- OP = DIGIT with a width: 0x81, 0x82, 0x83. -/
  | digitWithWidth
deriving DecidableEq, Repr

/-- `[8, 16, 32, 64][WSEL]` (R66, R69). -/
def widthOfWsel (wsel : BitVec 2) : Width :=
  if wsel = 0b00#2 then .w8 else if wsel = 0b01#2 then .w16 else if wsel = 0b10#2 then .w32 else .w64

/-- The WSEL code of a width (R66). -/
def wselOfWidth : Width → BitVec 2
  | .w8 => 0b00#2
  | .w16 => 0b01#2
  | .w32 => 0b10#2
  | .w64 => 0b11#2

/-- PARSE.U<W> (R68). -/
def parseOf : Width → Instr
  | .w8 => .parseU8
  | .w16 => .parseU16
  | .w32 => .parseU32
  | .w64 => .parseU64

/-- COPY.U<W> (R68). -/
def copyOf : Width → Instr
  | .w8 => .copyU8
  | .w16 => .copyU16
  | .w32 => .copyU32
  | .w64 => .copyU64

/-- Decoding looks at CMD alone and is total: one of the nine commands, or the reason it is illegal (R69, R74). -/
def decode (cmd : BitVec 8) : Except IllegalWord Instr :=
  if rsvField cmd ≠ 0b0000#4 then .error .reservedBits
  else if opField cmd = 0b00#2 then .ok (parseOf (widthOfWsel (wselField cmd)))
  else if opField cmd = 0b01#2 then .ok (copyOf (widthOfWsel (wselField cmd)))
  else if opField cmd = 0b10#2 then
    if wselField cmd = 0b00#2 then .ok .digit else .error .digitWithWidth
  else .error .reservedOp

/-- A command word from its fields OP and WSEL, with RSV = 0b0000 (R64). -/
def cmdWord (op wsel : BitVec 2) : BitVec 8 := op ++ 0b0000#4 ++ wsel

/-- The width a command selects; DIGIT has none (R68). -/
def Instr.width : Instr → Option Width
  | .parseU8 | .copyU8 => some .w8
  | .parseU16 | .copyU16 => some .w16
  | .parseU32 | .copyU32 => some .w32
  | .parseU64 | .copyU64 => some .w64
  | .digit => none

/-- The OP field of a command (R67). -/
def Instr.op : Instr → BitVec 2
  | .parseU8 | .parseU16 | .parseU32 | .parseU64 => 0b00#2
  | .copyU8 | .copyU16 | .copyU32 | .copyU64 => 0b01#2
  | .digit => 0b10#2

/-- The command word of a command (R68). WSEL must be 0b00 for DIGIT (R66). -/
def encode (i : Instr) : BitVec 8 :=
  cmdWord i.op (match i.width with
    | some w => wselOfWidth w
    | none => 0b00#2)

/-- The command reads SRC: only PARSE does (R48, R70). -/
def Instr.readsSrc : Instr → Bool
  | .parseU8 | .parseU16 | .parseU32 | .parseU64 => true
  | .copyU8 | .copyU16 | .copyU32 | .copyU64 => false
  | .digit => false

/-- The command writes DST: only COPY does (R49, R70). -/
def Instr.writesDst : Instr → Bool
  | .parseU8 | .parseU16 | .parseU32 | .parseU64 => false
  | .copyU8 | .copyU16 | .copyU32 | .copyU64 => true
  | .digit => false

/-- The command the decoder reads from a table row's word: a command is exactly one CMD byte (R75), so only 8 bits are one. -/
def decodeTableWord (nbits w : Nat) : Option Instr :=
  if nbits = 8 then
    match decode (BitVec.ofNat 8 w) with
    | .ok i => some i
    | .error _ => none
  else none

end Sys2Proof
end

