-- ==== Sys2Proof/Machine/State.lean ====
section
/-! DEFINITION. The state: the interface registers of every instance, host memory, the fault list, and the events still to come
(spec 10_state.md R27 to R44, 20_memory.md R45, 60_exceptions.md R139, 70_reset_and_hazards.md R153, R163, R164). -/

namespace Sys2Proof.Machine

/-- A buffer a request names: its first byte's place in host memory, and its length SLEN or DLEN (R30, R31, R46, R155).
Notes/assumptions 5: the block sees only the index within the buffer (R45). -/
structure Slice where
  base : Nat
  len : Nat
deriving DecidableEq, Repr

/-- The request fields CMD, VAL, SRC with SLEN and DST with DLEN (R27 to R31). -/
structure Request where
  cmd : BitVec 8
  val : BitVec 64
  src : Slice
  dst : Slice
deriving DecidableEq, Repr

/-- The four response registers (R32 to R35). -/
structure Response where
  status : BitVec 2
  rval : BitVec 64
  rok : Bool
  rcnt : BitVec 5
deriving DecidableEq, Repr

/-- The registers of one instance (R147). `busy` says that a transaction is in progress, with the latched fields in `req`
(R27, R43); RVALID and CI are the model's bookkeeping of R40 and R44. -/
structure Inst where
  busy : Bool
  req : Request
  resp : Response
  rvalid : Bool
  ci : Nat
deriving DecidableEq, Repr

/-- An empty buffer. -/
def Slice.empty : Slice := { base := 0, len := 0 }

/-- What the request registers hold after reset: no value in the spec. DESIGN CHOICE zeros, notes/assumptions 8. -/
def Request.reset : Request := { cmd := 0, val := 0, src := Slice.empty, dst := Slice.empty }

/-- What the response registers hold after reset: no value in the spec, and no host read sees it (R44).
DESIGN CHOICE zeros, notes/assumptions 7. -/
def Response.reset : Response := { status := 0, rval := 0, rok := false, rcnt := 0 }

/-- An instance right after reset: idle, RVALID = 0, CI = 0 (R43, R153). -/
def Inst.reset : Inst :=
  { busy := false, req := Request.reset, resp := Response.reset, rvalid := false, ci := 0 }

/-- The response registers a host can read (R164). -/
inductive RespReg where
  | status
  | rval
  | rok
  | rcnt
deriving DecidableEq, Repr

/-- The two faults a transaction can end in, with the information of R133. -/
inductive HwFault where
  | illegalCommand (cmd : BitVec 8)
  | illegalOperand (val : BitVec 64)
deriving DecidableEq, Repr

/-- What the fault list records (R139): the hardware's faults, and the model fault of a read before any response (R138). -/
inductive FaultEvent where
  | hw (f : HwFault)
  | readBeforeResponse (reg : RespReg)
deriving DecidableEq, Repr

/-- One record of the fault list: the fault, and the CI at which it occurred (R129, R139), on the named instance
(notes/assumptions 16). -/
structure FaultRecord where
  inst : Nat
  event : FaultEvent
  ci : Nat
deriving DecidableEq, Repr

/-- What happens next outside or between transactions (R164, R151, R57). Notes/assumptions 9. -/
inductive Event where
  /-- The host presents a request to instance `k`, which latches it (R27). -/
  | issue (k : Nat) (r : Request)
  /-- The transaction in progress on instance `k` runs and ends: one atomic step (R55, R57). -/
  | run (k : Nat)
  /-- The host reads a response register of instance `k` (R164). -/
  | readReg (k : Nat) (reg : RespReg)
  /-- The host writes bytes of its own memory (R45: SRC is written by the host only). -/
  | poke (addr : Nat) (bytes : List Byte)
  /-- The host reads bytes of its own memory, such as DST (R164). -/
  | peek (buf : Slice)
  /-- The platform applies reset to instance `k` (R151, R152). -/
  | reset (k : Nat)
deriving DecidableEq, Repr

/-- What the host's last read got back (R164). -/
inductive Readout where
  | nothing
  | reg (v : BitVec 64)
  | bytes (bs : List Byte)
deriving DecidableEq, Repr

/-- The whole state. `insts` lists the instances that are not in the reset state, `mem` the bytes of host memory that differ
from an unlisted byte; both in the canonical form `Sparse.wf` of Ops.lean. `cur`, `script`, `readout` and `draws` are the model's
own (notes/assumptions 28). -/
structure State where
  insts : List (Nat × Inst)
  mem : List Host.Cell
  faults : List FaultRecord
  cur : Nat
  script : List Event
  readout : Readout
  draws : Nat
deriving DecidableEq, Repr

/-- Right after reset: every instance idle with RVALID = 0 and CI = 0 (R43, R153), nothing listed in memory, an empty fault
list, and no event to come. -/
def State.reset : State :=
  { insts := [], mem := [], faults := [], cur := 0, script := [], readout := .nothing, draws := 0 }

/-- Why the model stops with a fault. The hardware's own faults are responses, not stops (R128, R132). -/
inductive Fault where
  /-- Raised by a host read of STATUS that finds the reserved code 0b11, which is never written (R33, I10). Safe: no run from
  reset reaches it. -/
  | reservedStatus
deriving DecidableEq, Repr

/-- Why the model gives a step no meaning. -/
inductive Refusal where
  /-- Raised by `exec` for an instruction that has no meaning yet. Safe. No arm uses it. -/
  | notModelled (mnemonic : String)
  /-- Raised by a host's issue whose buffers overlap those of a transaction in progress on another instance, at least one of
  the two a DST (R161). Safe: a refused launch has no claims. -/
  | overlappingBuffers
  /-- Raised by a host's write to SRC or DST bytes, or read of DST bytes, of a transaction in progress: the host duty of R160,
  for whose violation the model has no step. Safe as a stop; R160 says what it leaves out. -/
  | bufferInUse
  /-- Raised by an event that names an instance the platform has not (R147). Safe. -/
  | noSuchInstance
deriving DecidableEq, Repr

end Sys2Proof.Machine
end

