-- ==== Sys2Proof/Machine/Tables.lean ====
section
/-! DEFINITION. The two read-only tables: the width descriptors and the two-digit lookup table
(spec 10_state.md R20 to R25). They are constants: no command, host action, reset or fault changes them (R25). -/

namespace Sys2Proof.Machine

/-- One entry of the width descriptor table (R20). -/
structure WidthDescriptor where
  maxValue : Nat
  maxDigits : Nat
  cutoff : Nat
deriving DecidableEq, Repr

/-- The width descriptor table as R21 lists it. -/
def widthTable : Width → WidthDescriptor
  | .w8 => { maxValue := 255, maxDigits := 3, cutoff := 26 }
  | .w16 => { maxValue := 65535, maxDigits := 5, cutoff := 6554 }
  | .w32 => { maxValue := 4294967295, maxDigits := 10, cutoff := 429496730 }
  | .w64 => { maxValue := 18446744073709551615, maxDigits := 20, cutoff := 1844674407370955162 }

/-- maxValue(W) (R21). -/
def maxValue (w : Width) : Nat := (widthTable w).maxValue

/-- maxDigits(W) (R21). -/
def maxDigits (w : Width) : Nat := (widthTable w).maxDigits

/-- cutoff(W) (R21). -/
def cutoff (w : Width) : Nat := (widthTable w).cutoff

/-- ACC_WIDTH(W), the width of the reference decoder's accumulator (R21, R38). -/
def accWidth : Width → Nat
  | .w8 => 12
  | .w16 => 20
  | .w32 => 36
  | .w64 => 68

/-- The code of the character '0'. PRESUMED: R15 takes it from the ASCII standard (93 G1). Notes/assumptions 1. -/
def asciiZero : Nat := 0x30

/-- One line of R24's listing: the twenty bytes of the ten values whose tens digit is `t`. -/
def lutLine (t : BitVec 8) : List Byte :=
  [t, 0x30#8, t, 0x31#8, t, 0x32#8, t, 0x33#8, t, 0x34#8] ++ [t, 0x35#8, t, 0x36#8, t, 0x37#8, t, 0x38#8, t, 0x39#8]

/-- LUT: the 200 bytes "00" to "99", index 0 first, in the ten lines of R24's listing. -/
def lut : List Byte :=
  lutLine 0x30#8 ++ lutLine 0x31#8 ++ lutLine 0x32#8 ++ lutLine 0x33#8 ++ lutLine 0x34#8 ++
  (lutLine 0x35#8 ++ lutLine 0x36#8 ++ lutLine 0x37#8 ++ lutLine 0x38#8 ++ lutLine 0x39#8)

/-- `LUT[i]`, for an index 0 to 199 (R23); no rule indexes it elsewhere. -/
def lutAt (i : Nat) : Byte := lut.getD i 0#8

end Sys2Proof.Machine
end

