-- ==== Sys2Proof/Machine/Ops.lean ====
section
/-! DEFINITION. The named operations on the state: sparse lists, host memory, the instances' registers, the end of a transaction
and the taking of a fault (spec 20_memory.md, 60_exceptions.md R129, R137). -/

namespace Sys2Proof.Machine

/-! ### Sparse lists: keys strictly rising, no entry equal to what an unlisted key reads as -/

/-- The value at key `a`: `d` where the list has no entry for it. -/
def Sparse.get {α : Type} (d : α) : List (Nat × α) → Nat → α
  | [], _ => d
  | (k, v) :: m, a => if a = k then v else if a < k then d else Sparse.get d m a

/-- The list with `v` at key `a`. Writing `d` removes the entry; the filter then changes nothing in a canonical list, and makes
reading back what was written a law of every list. -/
def Sparse.set {α : Type} [DecidableEq α] (d : α) : List (Nat × α) → Nat → α → List (Nat × α)
  | [], a, v => if v = d then [] else [(a, v)]
  | (k, w) :: m, a, v =>
    if a < k then (if v = d then (k, w) :: m else (a, v) :: (k, w) :: m)
    else if a = k then (if v = d then m.filter (fun e => decide (a < e.1)) else (a, v) :: m)
    else (k, w) :: Sparse.set d m a v

/-- The canonical form: keys strictly rising and no entry equal to `d`. -/
def Sparse.wf {α : Type} [DecidableEq α] (d : α) : List (Nat × α) → Bool
  | [] => true
  | (k, v) :: m => decide (v ≠ d) && m.all (fun e => decide (k < e.1)) && Sparse.wf d m

/-! ### Host memory -/

/-- What a byte of host memory that nothing has written reads as. DESIGN CHOICE, notes/assumptions 6. -/
def unlistedByte : Byte := 0

/-- The byte at an address of host memory. -/
def Memory.read (m : List Host.Cell) (a : Nat) : Byte := Sparse.get unlistedByte m a

/-- Host memory with byte `b` at address `a`. -/
def Memory.write (m : List Host.Cell) (a : Nat) (b : Byte) : List Host.Cell := Sparse.set unlistedByte m a b

/-- The canonical form of host memory. -/
def Memory.wf (m : List Host.Cell) : Bool := Sparse.wf unlistedByte m

/-- The `n` bytes at addresses `a`, `a+1`, ..., one byte an access (R51). -/
def Memory.readBytes (m : List Host.Cell) (a : Nat) : Nat → List Byte
  | 0 => []
  | n + 1 => Memory.read m a :: Memory.readBytes m (a + 1) n

/-- Host memory with the bytes `bs` at addresses `a`, `a+1`, ..., each written once (R49, R51). -/
def Memory.writeBytes (m : List Host.Cell) (a : Nat) : List Byte → List Host.Cell
  | [] => m
  | b :: bs => Memory.writeBytes (Memory.write m a b) (a + 1) bs

/-- The bytes of a buffer, index 0 first (R13). -/
def Memory.readSlice (m : List Host.Cell) (b : Slice) : List Byte := Memory.readBytes m b.base b.len

/-- Two buffers share a byte (R161). -/
def Slice.overlaps (x y : Slice) : Bool :=
  decide (0 < x.len) && decide (0 < y.len) && decide (x.base < y.base + y.len) && decide (y.base < x.base + x.len)

/-! ### The updates of State -/

/-- The registers of instance `k`. -/
def State.inst (s : State) (k : Nat) : Inst := Sparse.get Inst.reset s.insts k

/-- The registers of the instance whose transaction the step performs. -/
def State.active (s : State) : Inst := s.inst s.cur

/-- The state with `x` as the registers of instance `k`; no other instance changes (R57). -/
def State.withInst (s : State) (k : Nat) (x : Inst) : State := { s with insts := Sparse.set Inst.reset s.insts k x }

/-- The state with another host memory. -/
def State.withMem (s : State) (m : List Host.Cell) : State := { s with mem := m }

/-- The state about to perform the transaction of instance `k`. -/
def State.withCur (s : State) (k : Nat) : State := { s with cur := k }

/-- The state with other events to come. -/
def State.withScript (s : State) (es : List Event) : State := { s with script := es }

/-- The state with what the host's read got back. -/
def State.withReadout (s : State) (r : Readout) : State := { s with readout := r }

/-- The state with `n` more free bytes drawn. -/
def State.afterDraws (s : State) (n : Nat) : State := { s with draws := s.draws + n }

/-- The fault is recorded at the end of the fault list; nothing removes it (R139). -/
def State.recordFault (s : State) (k : Nat) (e : FaultEvent) (ci : Nat) : State :=
  { s with faults := s.faults ++ [{ inst := k, event := e, ci := ci }] }

/-! ### The end of a transaction -/

/-- An instance whose transaction ends with the response `r`: all four registers are written once, CI goes up by exactly 1,
RVALID becomes 1 and the instance is idle (R32, R40, R129). -/
def Inst.ended (x : Inst) (r : Response) : Inst :=
  { x with busy := false, resp := r, rvalid := true, ci := x.ci + 1 }

/-- The transaction of the active instance ends with the response `r`. -/
def State.endTransaction (s : State) (r : Response) : State := s.withInst s.cur (s.active.ended r)

/-- STATUS code of DONE (R33). -/
def statusDone : BitVec 2 := 0b00#2

/-- STATUS code of IllegalCommand (R33, R133). -/
def statusFaultCmd : BitVec 2 := 0b01#2

/-- STATUS code of IllegalOperand (R33, R133). -/
def statusFaultOperand : BitVec 2 := 0b10#2

/-- `code(F)`: the value a fault writes to STATUS (R133). -/
def HwFault.code : HwFault → BitVec 2
  | .illegalCommand _ => statusFaultCmd
  | .illegalOperand _ => statusFaultOperand

/-- The response of a DONE transaction (R34, R35). -/
def doneResponse (value : Nat) (ok : Bool) (count : Nat) : Response :=
  { status := statusDone, rval := BitVec.ofNat 64 value, rok := ok, rcnt := BitVec.ofNat 5 count }

/-- The response of a faulted transaction (R137). -/
def faultResponse (f : HwFault) : Response := { status := f.code, rval := 0, rok := false, rcnt := 0 }

/-- TAKING A FAULT: `on raise F(info)` of R129. The response registers, CI and RVALID are written and the fault is recorded with
the CI of the faulting transaction; nothing else changes (R130, R137, R139). No program counter or status is saved, no mode
changes and control goes nowhere, because the block has none of them (R131); so there is no return from a fault either (R132):
the instance is idle and takes the next command. -/
def State.takeFault (s : State) (f : HwFault) : State :=
  (s.endTransaction (faultResponse f)).recordFault s.cur (.hw f) s.active.ci

/-! ### Which buffers a transaction uses, and who may touch them -/

/-- The bytes of SRC a request's command may read: none unless it is a PARSE (R47, R48, R70). -/
def Request.usedSrc (r : Request) : Slice :=
  match decode r.cmd with
  | .ok i => if i.readsSrc then r.src else Slice.empty
  | .error _ => Slice.empty

/-- The bytes of DST a request's command may write: none unless it is a COPY (R49, R70). -/
def Request.usedDst (r : Request) : Slice :=
  match decode r.cmd with
  | .ok i => if i.writesDst then r.dst else Slice.empty
  | .error _ => Slice.empty

/-- Two transactions that may run at the same time name overlapping buffers, at least one of them a DST (R161).
Notes/assumptions 13. -/
def Request.conflicts (r q : Request) : Bool :=
  r.usedDst.overlaps q.usedDst || r.usedDst.overlaps q.usedSrc || r.usedSrc.overlaps q.usedDst

/-- Some instance has a transaction in progress for which `p` holds. -/
def State.anyBusy (s : State) (p : Nat → Request → Bool) : Bool :=
  s.insts.any (fun e => (s.inst e.1).busy && p e.1 (s.inst e.1).req)

/-- The request would conflict with a transaction in progress on another instance (R161). -/
def State.issueConflicts (s : State) (k : Nat) (r : Request) : Bool :=
  s.anyBusy (fun j q => decide (j ≠ k) && r.conflicts q)

/-- A host's write of these bytes would change SRC or DST of a transaction in progress (R160). -/
def State.writeForbidden (s : State) (b : Slice) : Bool :=
  s.anyBusy (fun _ q => b.overlaps q.usedSrc || b.overlaps q.usedDst)

/-- A host's read of these bytes would read DST of a transaction in progress (R160). -/
def State.readForbidden (s : State) (b : Slice) : Bool :=
  s.anyBusy (fun _ q => b.overlaps q.usedDst)

/-- An instance that latches a request: all four fields, and the transaction is in progress (R27). -/
def Inst.latched (x : Inst) (r : Request) : Inst := { x with busy := true, req := r }

/-- The first listed instance that has a transaction in progress: the lowest-numbered one of a canonical list. -/
def State.firstBusy (s : State) : Option Nat :=
  (s.insts.find? (fun e => (s.inst e.1).busy)).map (fun e => e.1)

/-- A request that is one command word with every operand zero and empty: what the assembler sets in ignored fields (R80). -/
def bareRequest (cmd : BitVec 8) : Request := { Request.reset with cmd := cmd }

/-- The command word placed where the very next step performs it: latched in instance 0, which every platform has, and that
instance's transaction next in the script. Notes/assumptions 23. -/
def State.placeCommand (s : State) (cmd : BitVec 8) : State :=
  (s.withInst 0 ((s.inst 0).latched (bareRequest cmd))).withScript (.run 0 :: s.script)

end Sys2Proof.Machine
end

