-- ==== Sys2Proof/Machine/Operands.lean ====
section
/-! DEFINITION. The operands of the commands, taken from the latched request (spec 30_encoding.md R70 to R73). -/

namespace Sys2Proof.Machine

/-- The operand s of PARSE: the byte sequence SRC of length SLEN (R73). Every sequence is legal. -/
def srcOperand (s : State) : List Byte := Memory.readSlice s.mem s.active.req.src

/-- The operand u of COPY.U<W>: VAL taken whole, legal when VAL < 2^W (R71, R107). -/
def copyOperand (w : Width) (s : State) : Option Nat :=
  if s.active.req.val.toNat < 2 ^ w.bits then some s.active.req.val.toNat else none

/-- The operand b of DIGIT: VAL[7:0], legal when VAL < 256 (R72, R101). -/
def digitOperand (s : State) : Option Byte :=
  if s.active.req.val.toNat < 256 then some (s.active.req.val.extractLsb' 0 8) else none

/-- DLEN (R31, R71). -/
def dlen (s : State) : Nat := s.active.req.dst.len

end Sys2Proof.Machine
end

