-- ==== Sys2Proof/Machine/Agenda.lean ====
section
/-! DEFINITION. What the step does next: the host's interactions, reset, and which transaction runs
(spec 20_memory.md R55 to R57, 60_exceptions.md R129, R138, R148, 70_reset_and_hazards.md R151 to R154, R160, R161, R164). -/

namespace Sys2Proof.Machine

/-- What the step is to do: answer at once, or perform a decoded command in a state. -/
inductive Move where
  | answer (o : Host.Outcome State Fault Refusal)
  | perform (i : Instr) (s : State)

/-- The transaction in progress on instance `k` starts its one atomic step: CMD is decoded first; an illegal command word
raises IllegalCommand, whatever VAL, SRC and DST hold (R129, R134, R136). -/
def beginTransaction (k : Nat) (s : State) : Move :=
  match decode (s.withCur k).active.req.cmd with
  | .ok i => .perform i (s.withCur k)
  | .error _ => .answer (.next ((s.withCur k).takeFault (.illegalCommand (s.withCur k).active.req.cmd)))

/-- The host presents a request to an idle instance (R27, R164). A launch whose buffers overlap those of a transaction that may
run at the same time is refused (R161). The response registers, CI and RVALID keep their values (R32). -/
def hostIssue (k : Nat) (r : Request) (s : State) : Host.Outcome State Fault Refusal :=
  if Config.hasInstance k = false then .refused .noSuchInstance
  else if s.issueConflicts k r then .refused .overlappingBuffers
  else .next (s.withInst k ((s.inst k).latched r))

/-- The value of a response register, as 64 bits (R33 to R35). -/
def Response.read (r : Response) : RespReg → BitVec 64
  | .status => r.status.setWidth 64
  | .rval => r.rval
  | .rok => (BitVec.ofBool r.rok).setWidth 64
  | .rcnt => r.rcnt.setWidth 64

/-- The host reads a response register. Before the first response this is the model fault ReadBeforeResponse: it is recorded and
no value is returned (R44, R138, R139). The reserved STATUS code, never written, is a fault of the model (I10). -/
def hostReadReg (k : Nat) (reg : RespReg) (s : State) : Host.Outcome State Fault Refusal :=
  if Config.hasInstance k = false then .refused .noSuchInstance
  else if (s.inst k).rvalid = false then
    .next ((s.recordFault k (.readBeforeResponse reg) (s.inst k).ci).withReadout .nothing)
  else if reg = .status ∧ (s.inst k).resp.status = 0b11#2 then .fault .reservedStatus
  else .next (s.withReadout (.reg ((s.inst k).resp.read reg)))

/-- The host writes bytes of its memory (R45), but none that a transaction in progress uses (R160). -/
def hostPoke (a : Nat) (bs : List Byte) (s : State) : Host.Outcome State Fault Refusal :=
  if s.writeForbidden { base := a, len := bs.length } then .refused .bufferInUse
  else .next (s.withMem (Memory.writeBytes s.mem a bs))

/-- The host reads bytes of its memory (R164), but none of the DST of a transaction in progress (R160). -/
def hostPeek (b : Slice) (s : State) : Host.Outcome State Fault Refusal :=
  if s.readForbidden b then .refused .bufferInUse
  else .next (s.withReadout (.bytes (Memory.readSlice s.mem b)))

/-- `n` free bytes from the counter on: the draws of R154. -/
def drawBytes (first : Nat) : Nat → List Byte
  | 0 => []
  | n + 1 => Config.freeByte first :: drawBytes (first + 1) n

/-- How many bytes of DST a reset of this instance leaves open: min(DLEN, maxDigits(W)) when a COPY.U<W> with a legal operand is
in progress, otherwise none (R50, R154). -/
def openBytes (x : Inst) : Nat :=
  if x.busy = false then 0
  else match decode x.req.cmd with
    | .ok i => if i.writesDst then
        match i.width with
        | some w => if x.req.val.toNat < 2 ^ w.bits then min x.req.dst.len (maxDigits w) else 0
        | none => 0
      else 0
    | .error _ => 0

/-- Reset of one instance: it is left in the state of R153, and no other instance changes (R151, R152). A COPY in progress leaves
its open DST bytes as draws, and every other byte as it was (R154). The fault list keeps its records (R139). -/
def hostReset (k : Nat) (s : State) : Host.Outcome State Fault Refusal :=
  if Config.hasInstance k = false then .refused .noSuchInstance
  else
    .next (((s.withMem (Memory.writeBytes s.mem (s.inst k).req.dst.base (drawBytes s.draws (openBytes (s.inst k))))).afterDraws
      (openBytes (s.inst k))).withInst k Inst.reset)

/-- What comes next. The script's first event happens; a request to an instance that is not idle waits until the transaction in
progress there has run (R56, R148); with no event left, a transaction in progress still runs and ends (R165), and with none in
progress the block holds its registers (R150). Notes/assumptions 9 to 12. -/
def nextMove (s : State) : Move :=
  match s.script with
  | [] =>
    match s.firstBusy with
    | none => .answer (.next s)
    | some k => beginTransaction k s
  | .issue k r :: es =>
    if (s.inst k).busy then beginTransaction k s else .answer (hostIssue k r (s.withScript es))
  | .run k :: es =>
    if (s.inst k).busy then beginTransaction k (s.withScript es) else .answer (.next (s.withScript es))
  | .readReg k reg :: es => .answer (hostReadReg k reg (s.withScript es))
  | .poke a bs :: es => .answer (hostPoke a bs (s.withScript es))
  | .peek b :: es => .answer (hostPeek b (s.withScript es))
  | .reset k :: es => .answer (hostReset k (s.withScript es))

end Sys2Proof.Machine
end

