-- ==== Sys2Proof/Machine/Codec.lean ====
section
/-! DEFINITION. Digits, canonical text, the value of a text, and the two observable functions of the block
(spec 00_scope.md R15 to R17, 40_decoder.md R83 to R86 and R101, 41_encoder.md R114). -/

namespace Sys2Proof.Machine

/-- `isDigit(b)`: b is the code of one of '0' to '9' (R15). -/
def isDigit (b : Byte) : Bool := decide (asciiZero ≤ b.toNat) && decide (b.toNat ≤ asciiZero + 9)

/-- `digitVal(b) = b - 0x30`; used only where `isDigit b` (R15). -/
def digitVal (b : Byte) : Nat := b.toNat - asciiZero

/-- `digitByte(d) = 0x30 + d`, for d from 0 to 9 (R15). -/
def digitByte (d : Nat) : Byte := BitVec.ofNat 8 (asciiZero + d)

/-- The recursion of R16 with a bound on its depth. -/
def canonWithin : Nat → Nat → List Byte
  | 0, v => [digitByte v]
  | fuel + 1, v => if v < 10 then [digitByte v] else canonWithin fuel (v / 10) ++ [digitByte (v % 10)]

/-- `canon(v)`, the canonical decimal text of v, most significant digit first (R16). A value never needs more than v steps. -/
def canon (v : Nat) : List Byte := canonWithin v v

/-- `nd(v)`, the number of decimal digits of v (R16). -/
def nd (v : Nat) : Nat := (canon v).length

/-- `decVal(s)`: the sum of digitVal(s[i]) * 10^(n-1-i) (R17). -/
def decVal : List Byte → Nat
  | [] => 0
  | b :: s => digitVal b * 10 ^ s.length + decVal s

/-- The outcomes of a decode (R83). -/
inductive DecodeOutcome where
  | success
  | syntaxError
  | lengthOverflow
  | magnitudeOverflow
deriving DecidableEq, Repr

/-- Which outcome a decode of `s` has, in the order of R84. -/
def decodeOutcome (w : Width) (s : List Byte) : DecodeOutcome :=
  if s.length = 0 then .syntaxError
  else if s.length > maxDigits w then .lengthOverflow
  else if s.any (fun b => !isDigit b) then .syntaxError
  else if decVal s > maxValue w then .magnitudeOverflow
  else .success

/-- `parseUint(W, s)`: the value and ok of a decode (R86). -/
def parseUint (w : Width) (s : List Byte) : Nat × Bool :=
  match decodeOutcome w s with
  | .syntaxError => (0, false)
  | .lengthOverflow => (maxValue w, false)
  | .magnitudeOverflow => (maxValue w, false)
  | .success => (decVal s, true)

/-- `parseDigit(b)` (R101). -/
def parseDigit (b : Byte) : Nat × Bool := if isDigit b then (digitVal b, true) else (0, false)

/-- The bytes `copyUint(W, DST, DLEN, u)` writes to DST[0], DST[1], ...: the first min(DLEN, nd(u)) bytes of canon(u)
(R110, R114). Their number is the count k it returns (R111). -/
def copyText (dlen u : Nat) : List Byte := (canon u).take dlen

end Sys2Proof.Machine
end

