-- ==== Sys2Proof/Machine/Flags.lean ====
section
/-! DEFINITION. The one flag, ROK, and what a host reads from it (spec 10_state.md R34, R41, 41_encoder.md R106). -/

namespace Sys2Proof.Machine

/-- ROK after a decode: true on success and on nothing else (R41, R85). -/
def rokOfDecode (result : Nat × Bool) : Bool := result.2

/-- ROK after a COPY that was performed; it says nothing about truncation (R106, R113). -/
def rokOfCopy : Bool := true

/-- What a host concludes from STATUS, RVAL and ROK of a PARSE.U<W> (R41, R137): a fault's response says nothing about the
text; RVAL tells a syntax error from an overflow of either kind. -/
inductive HostVerdict where
  | faulted
  | value (v : Nat)
  | syntaxError
  | overflow
deriving DecidableEq, Repr

/-- The host's classification of a PARSE response (R41). -/
def hostVerdict (r : Response) : HostVerdict :=
  if r.status ≠ statusDone then .faulted
  else if r.rok then .value r.rval.toNat
  else if r.rval = 0 then .syntaxError
  else .overflow

end Sys2Proof.Machine
end

