-- ==== Sys2Proof/Machine/Decoder.lean ====
section
/-! DEFINITION. The decoder family: PARSE.U8, PARSE.U16, PARSE.U32, PARSE.U64 and DIGIT (spec 40_decoder.md R81, R82, R96 to R99,
R101). -/

namespace Sys2Proof.Machine

/-- PARSE.U<W>: `STATUS <- 0b00; RVAL <- zext_64(value); ROK <- ok; RCNT <- 0` with (value, ok) = parseUint(W, SRC)
(R82, R96 to R99). It never faults. -/
def parseTransaction (w : Width) (s : State) : State :=
  let result := parseUint w (srcOperand s)
  s.endTransaction (doneResponse result.1 (rokOfDecode result) 0)

/-- DIGIT (R101): IllegalOperand when VAL >= 256, otherwise the result of parseDigit. -/
def digitTransaction (s : State) : State :=
  match digitOperand s with
  | none => s.takeFault (.illegalOperand s.active.req.val)
  | some b =>
    let result := parseDigit b
    s.endTransaction (doneResponse result.1 (rokOfDecode result) 0)

/-- PARSE.U8 (R96). -/
def execParseU8 (s : State) : Host.Outcome State Fault Refusal := .next (parseTransaction .w8 s)

/-- PARSE.U16 (R97). -/
def execParseU16 (s : State) : Host.Outcome State Fault Refusal := .next (parseTransaction .w16 s)

/-- PARSE.U32 (R98). -/
def execParseU32 (s : State) : Host.Outcome State Fault Refusal := .next (parseTransaction .w32 s)

/-- PARSE.U64 (R99). -/
def execParseU64 (s : State) : Host.Outcome State Fault Refusal := .next (parseTransaction .w64 s)

/-- DIGIT (R101). -/
def execDigit (s : State) : Host.Outcome State Fault Refusal := .next (digitTransaction s)

end Sys2Proof.Machine
end

