-- ==== Sys2Proof/Machine/Encoder.lean ====
section
/-! DEFINITION. The encoder family: COPY.U8, COPY.U16, COPY.U32 and COPY.U64 (spec 41_encoder.md R105 to R114, R121 to R124). -/

namespace Sys2Proof.Machine

/-- COPY.U<W>: IllegalOperand when VAL >= 2^W, before any write (R107); otherwise the bytes of copyUint go to DST[0], DST[1], ...
and `STATUS <- 0b00; RVAL <- 0; ROK <- 1; RCNT <- k` (R106, R114). -/
def copyTransaction (w : Width) (s : State) : State :=
  match copyOperand w s with
  | none => s.takeFault (.illegalOperand s.active.req.val)
  | some u =>
    let text := copyText (dlen s) u
    (s.withMem (Memory.writeBytes s.mem s.active.req.dst.base text)).endTransaction
      (doneResponse 0 rokOfCopy text.length)

/-- COPY.U8 (R121). -/
def execCopyU8 (s : State) : Host.Outcome State Fault Refusal := .next (copyTransaction .w8 s)

/-- COPY.U16 (R122). -/
def execCopyU16 (s : State) : Host.Outcome State Fault Refusal := .next (copyTransaction .w16 s)

/-- COPY.U32 (R123). -/
def execCopyU32 (s : State) : Host.Outcome State Fault Refusal := .next (copyTransaction .w32 s)

/-- COPY.U64 (R124). -/
def execCopyU64 (s : State) : Host.Outcome State Fault Refusal := .next (copyTransaction .w64 s)

end Sys2Proof.Machine
end

