-- ==== Sys2Proof/Machine/Dispatch.lean ====
section
/-! DEFINITION. One arm per command (spec 30_encoding.md R68, 60_exceptions.md R129: "perform cmd"). -/

namespace Sys2Proof.Machine

def exec (i : Instr) (s : State) : Host.Outcome State Fault Refusal :=
  match i with
  | .parseU8 => Sys2Proof.Machine.execParseU8 s
  | .parseU16 => Sys2Proof.Machine.execParseU16 s
  | .parseU32 => Sys2Proof.Machine.execParseU32 s
  | .parseU64 => Sys2Proof.Machine.execParseU64 s
  | .copyU8 => Sys2Proof.Machine.execCopyU8 s
  | .copyU16 => Sys2Proof.Machine.execCopyU16 s
  | .copyU32 => Sys2Proof.Machine.execCopyU32 s
  | .copyU64 => Sys2Proof.Machine.execCopyU64 s
  | .digit => Sys2Proof.Machine.execDigit s

end Sys2Proof.Machine
end

