-- ==== Sys2Proof/Machine/Step.lean ====
section
/-! DEFINITION. One step of the model (spec 60_exceptions.md R129, 20_memory.md R55). -/

namespace Sys2Proof.Machine

/-- One step: one event, or one whole transaction. -/
def step (s : State) : Host.Outcome State Fault Refusal :=
  match nextMove s with
  | .answer o => o
  | .perform i t => exec i t

/-- `s` with the command word `w` where the very next step performs it, its operands zero and empty. A command is one byte
(R64, R75), so only its 8 bits are placed. Notes/assumptions 23. -/
def State.withFetchWord (s : State) (_nbits w : Nat) : State := s.placeCommand (BitVec.ofNat 8 w)

end Sys2Proof.Machine
end

