-- ==== Sys2Proof/Machine/Assembler.lean ====
section
/-! DEFINITION. The assembler: lines of text, the requests they stand for, and the listing of an encoding
(spec 30_encoding.md R76 to R80). It is no part of the block: it makes the events of a host. Conventions: notes/assumptions 22
and 27. -/

namespace Sys2Proof.Machine

/-! ### From a line's term to a request -/

/-- The buffer a slice `Bk[a:b]` names: bytes a to b-1 of host buffer k, which the host has placed at `place k` (R77). -/
def sliceOf (place : Nat → Nat) (b : BufSlice) : Slice := { base := place b.buf + b.lo, len := b.hi - b.lo }

/-- The buffer a source operand names; a literal is placed in a host buffer for the command, at `lit` (R77). Where that is in host
memory is the model's choice (DESIGN CHOICE, notes/assumptions 22). -/
def srcOf (place : Nat → Nat) (lit : Nat) : SrcArg → Slice
  | .literal bytes => { base := lit, len := bytes.length }
  | .slice b => sliceOf place b

/-- The bytes the host writes for a literal before it issues the command (R77). -/
def literalPoke (lit : Nat) : SrcArg → List Event
  | .literal bytes => [.poke lit bytes]
  | .slice _ => []

/-- The request a well-formed line stands for; fields the command ignores are zero and empty (R70, R80). RAW gives CMD and VAL
unchanged, with its SRC and DST (R78). -/
def requestOf (place : Nat → Nat) (lit : Nat) : AsmLine → Request
  | .parse w src => { bareRequest (encode (parseOf w)) with src := srcOf place lit src }
  | .copy w dst imm => { bareRequest (encode (copyOf w)) with val := BitVec.ofNat 64 imm, dst := sliceOf place dst }
  | .digit b => { bareRequest (encode .digit) with val := BitVec.ofNat 64 b }
  | .raw cmd imm src dst =>
    { cmd := BitVec.ofNat 8 cmd, val := BitVec.ofNat 64 imm, src := srcOf place lit src, dst := sliceOf place dst }

/-- The literal a line holds, if it holds one. -/
def literalOf (lit : Nat) : AsmLine → List Event
  | .parse _ src => literalPoke lit src
  | .copy _ _ _ => []
  | .digit _ => []
  | .raw _ _ src _ => literalPoke lit src

/-- How many bytes of host memory a line's literal takes. -/
def literalSize : AsmLine → Nat
  | .parse _ (.literal bytes) => bytes.length
  | .parse _ (.slice _) => 0
  | .copy _ _ _ => 0
  | .digit _ => 0
  | .raw _ _ (.literal bytes) _ => bytes.length
  | .raw _ _ (.slice _) _ => 0

/-- The events of one line on instance `k`: exactly one command, or none for a line the assembler refuses (R78, R79). -/
def assembleLine (place : Nat → Nat) (lit k : Nat) (l : AsmLine) : Option (List Event) :=
  if l.wellFormed then some (literalOf lit l ++ [.issue k (requestOf place lit l)]) else none

/-! ### Reading a line of text -/

/-- The words and signs of a line. -/
inductive Token where
  | word (cs : List Char)
  | str (bs : List Byte)
  | chr (b : Byte)
  | comma
  | openBracket
  | colon
  | closeBracket
deriving DecidableEq, Repr

/-- A character of a word: a letter, a digit or a full stop. -/
def isWordChar (c : Char) : Bool := c.isAlphanum || c = '.'

/-- The value of a decimal digit character. -/
def decDigit (c : Char) : Option Nat := if '0' ≤ c ∧ c ≤ '9' then some (c.toNat - '0'.toNat) else none

/-- The value of a hexadecimal digit character. -/
def hexDigit (c : Char) : Option Nat :=
  if '0' ≤ c ∧ c ≤ '9' then some (c.toNat - '0'.toNat)
  else if 'a' ≤ c ∧ c ≤ 'f' then some (c.toNat - 'a'.toNat + 10)
  else if 'A' ≤ c ∧ c ≤ 'F' then some (c.toNat - 'A'.toNat + 10)
  else none

/-- The byte of a character that stands for its ASCII code (R77); a character outside ASCII has none. -/
def asciiByte (c : Char) : Option Byte := if c.toNat < 128 then some (BitVec.ofNat 8 c.toNat) else none

/-- The characters up to the first that is not of a word, and the rest. -/
def takeWord : List Char → List Char × List Char
  | [] => ([], [])
  | c :: cs => if isWordChar c then ((c :: (takeWord cs).1), (takeWord cs).2) else ([], c :: cs)

/-- The bytes of a string literal after its opening quote, up to the closing one, and the rest (R77): `\xHH` is the byte 0xHH,
`\"` is 0x22, and every other character, a lone backslash among them, stands for its ASCII code. -/
def lexString : List Char → Option (List Byte × List Char)
  | [] => none
  | '\\' :: '\x22' :: cs => (lexString cs).map (fun r => (0x22#8 :: r.1, r.2))
  | '\\' :: 'x' :: h :: l :: cs =>
    match hexDigit h, hexDigit l with
    | some hi, some lo => (lexString cs).map (fun r => (BitVec.ofNat 8 (16 * hi + lo) :: r.1, r.2))
    | _, _ => (lexString ('x' :: h :: l :: cs)).map (fun r => (0x5C#8 :: r.1, r.2))
  | c :: cs =>
    if c = '\x22' then some ([], cs)
    else match asciiByte c with
      | some b => (lexString cs).map (fun r => (b :: r.1, r.2))
      | none => none

/-- The tokens of a line; `;` outside a literal starts a comment that runs to the end of the line (R76). Each turn takes at least
one character, so a line's length bounds the turns. DESIGN CHOICE (notes/assumptions 22): R76 does not say which characters may
stand between tokens; here a space and a tab may, and a carriage return, like any other character of no token, refuses the line. -/
def lexWithin : Nat → List Char → Option (List Token)
  | _, [] => some []
  | 0, _ :: _ => none
  | fuel + 1, c :: cs =>
    if c = ';' then some []
    else if c = ' ' ∨ c = '\t' then lexWithin fuel cs
    else if c = ',' then (lexWithin fuel cs).map (.comma :: ·)
    else if c = '[' then (lexWithin fuel cs).map (.openBracket :: ·)
    else if c = ':' then (lexWithin fuel cs).map (.colon :: ·)
    else if c = ']' then (lexWithin fuel cs).map (.closeBracket :: ·)
    else if c = '\x22' then
      match lexString cs with
      | some (bs, rest) => (lexWithin fuel rest).map (.str bs :: ·)
      | none => none
    else if c = '\x27' then
      match cs with
      | d :: '\x27' :: rest =>
        match asciiByte d with
        | some b => (lexWithin fuel rest).map (.chr b :: ·)
        | none => none
      | _ => none
    else if isWordChar c then
      (lexWithin fuel (takeWord (c :: cs)).2).map (.word (takeWord (c :: cs)).1 :: ·)
    else none

/-- The tokens of a line. -/
def lexLine (cs : List Char) : Option (List Token) := lexWithin cs.length cs

/-- The number a run of digits of the given base writes, most significant first; `acc` holds the part read so far. -/
def digitsValue (base : Nat) (digit : Char → Option Nat) (acc : Nat) : List Char → Option Nat
  | [] => some acc
  | c :: cs =>
    match digit c with
    | some d => digitsValue base digit (base * acc + d) cs
    | none => none

/-- A natural number in decimal, or in hex with a `0x` before it (R77). -/
def numberOf : List Char → Option Nat
  | [] => none
  | ['0', 'x'] => none
  | '0' :: 'x' :: cs => digitsValue 16 hexDigit 0 cs
  | cs => digitsValue 10 decDigit 0 cs

/-- A word in upper case: a mnemonic is matched without regard to case (R76). -/
def upperWord (cs : List Char) : List Char := cs.map Char.toUpper

/-- What the mnemonics of R76 and the function names of R78 stand for. -/
inductive Mnemonic where
  | parse (w : Width)
  | copy (w : Width)
  | digit
  | raw
deriving DecidableEq, Repr

/-- The mnemonics of R68 and RAW, with the source's function names beside them (R76, R78), in upper case. -/
def mnemonicTable : List (String × Mnemonic) :=
  [("PARSE.U8", .parse .w8), ("PARSE.U16", .parse .w16), ("PARSE.U32", .parse .w32), ("PARSE.U64", .parse .w64),
   ("COPY.U8", .copy .w8), ("COPY.U16", .copy .w16), ("COPY.U32", .copy .w32), ("COPY.U64", .copy .w64),
   ("DIGIT", .digit), ("RAW", .raw)] ++
  [("PARSEUINT8", .parse .w8), ("PARSEUINT16", .parse .w16), ("PARSEUINT32", .parse .w32), ("PARSEUINT64", .parse .w64),
   ("COPYUINT8", .copy .w8), ("COPYUINT16", .copy .w16), ("COPYUINT32", .copy .w32), ("COPYUINT64", .copy .w64),
   ("PARSEDIGIT", .digit)]

/-- The mnemonic a word is. -/
def mnemonicOf (cs : List Char) : Option Mnemonic :=
  (mnemonicTable.find? (fun e => decide (e.1.toList = upperWord cs))).map (fun e => e.2)

/-- The number of a buffer name `Bk`. DESIGN CHOICE (notes/assumptions 22): R77 does not say how k is written; here it is decimal,
after an upper-case B. -/
def bufferOf : List Char → Option Nat
  | 'B' :: c :: cs => digitsValue 10 decDigit 0 (c :: cs)
  | _ => none

/-- A slice `Bk[a:b]`, and the tokens after it (R77). DESIGN CHOICE (notes/assumptions 22): R77 does not say how a and b are
written; here they are decimal, and a number with `0x` refuses the line. -/
def sliceArg : List Token → Option (BufSlice × List Token)
  | .word k :: .openBracket :: .word a :: .colon :: .word b :: .closeBracket :: rest =>
    match bufferOf k, digitsValue 10 decDigit 0 a, digitsValue 10 decDigit 0 b with
    | some k, some a, some b => some ({ buf := k, lo := a, hi := b }, rest)
    | _, _, _ => none
  | _ => none

/-- A source operand, and the tokens after it (R77). -/
def srcArg : List Token → Option (SrcArg × List Token)
  | .str bs :: rest => some (.literal bs, rest)
  | ts => (sliceArg ts).map (fun r => (.slice r.1, r.2))

/-- A number, and the tokens after it (R77). -/
def numArg : List Token → Option (Nat × List Token)
  | .word cs :: rest => (numberOf cs).map (fun n => (n, rest))
  | _ => none

/-- The byte operand of DIGIT: a character literal or a number (R77). -/
def byteArg : List Token → Option (Nat × List Token)
  | .chr b :: rest => some (b.toNat, rest)
  | ts => numArg ts

/-- The tokens after a comma. -/
def afterComma : List Token → Option (List Token)
  | .comma :: ts => some ts
  | _ => none

/-- An operand list that ends where the line ends: at most one command stands on a line (R76). -/
def atEnd {α : Type} : Option (α × List Token) → Option α
  | some (x, []) => some x
  | _ => none

/-- The operands of each form (R76). -/
def operandsOf (m : Mnemonic) (ts : List Token) : Option AsmLine :=
  match m with
  | .parse w => atEnd ((srcArg ts).map (fun r => (.parse w r.1, r.2)))
  | .copy w => do
    let (dst, ts) ← sliceArg ts
    let ts ← afterComma ts
    atEnd ((numArg ts).map (fun r => (.copy w dst r.1, r.2)))
  | .digit => atEnd ((byteArg ts).map (fun r => (.digit r.1, r.2)))
  | .raw => do
    let (cmd, ts) ← numArg ts
    let ts ← afterComma ts
    let (imm, ts) ← numArg ts
    let ts ← afterComma ts
    let (src, ts) ← srcArg ts
    let ts ← afterComma ts
    atEnd ((sliceArg ts).map (fun r => (.raw cmd imm src r.1, r.2)))

/-- What a line of text is. -/
inductive LineText where
  | blank
  | command (l : AsmLine)
  | refused
deriving DecidableEq, Repr

/-- Reads one line: blank or a comment, a line of the forms of R76 that passes the assembler's checks (R78), or a line it
refuses. -/
def readLine (cs : List Char) : LineText :=
  match lexLine cs with
  | none => .refused
  | some [] => .blank
  | some (.word m :: ts) =>
    match (mnemonicOf m).bind (fun m => operandsOf m ts) with
    | some l => if l.wellFormed then .command l else .refused
    | none => .refused
  | some _ => .refused

/-- The events of one line of text on instance `k` (R76 to R79): none for a blank line, no value for a refused one. -/
def assembleText (place : Nat → Nat) (lit k : Nat) (cs : List Char) : Option (List Event) :=
  match readLine cs with
  | .blank => some []
  | .command l => assembleLine place lit k l
  | .refused => none

/-- The lines of a text. DESIGN CHOICE (notes/assumptions 22): R76 does not say what ends a line; here a line feed does, and
nothing else. -/
def splitLines : List Char → List (List Char)
  | [] => [[]]
  | '\n' :: cs => [] :: splitLines cs
  | c :: cs =>
    match splitLines cs with
    | [] => [[c]]
    | l :: ls => (c :: l) :: ls

/-- The script of the lines of a program on instance `k`; no value if some line is refused. DESIGN CHOICE (notes/assumptions 22):
R78 says that a refused line produces no command, and not what becomes of the other lines; here they produce none either.
Each literal gets a host buffer of its own (R77): `lit` is the first address that no literal before it has taken. A request waits
until the instance is idle (R56), so no event between two lines is needed. -/
def assembleLines (place : Nat → Nat) (k : Nat) : Nat → List (List Char) → Option (List Event)
  | _, [] => some []
  | lit, cs :: lines =>
    match readLine cs with
    | .blank => assembleLines place k lit lines
    | .refused => none
    | .command l =>
      match assembleLine place lit k l, assembleLines place k (lit + literalSize l) lines with
      | some es, some rest => some (es ++ rest)
      | _, _ => none

/-- The script of a program text on instance `k`, with its literals from address `lit` on (R76 to R79); no value if some line is
refused (DESIGN CHOICE, notes/assumptions 22). -/
def assembleProgram (place : Nat → Nat) (lit k : Nat) (cs : List Char) : Option (List Event) :=
  assembleLines place k lit (splitLines cs)

/-! ### The listing of an encoding -/

/-- A hexadecimal digit, upper case as R80 writes them. -/
def hexChar (d : Nat) : Char := if d < 10 then Char.ofNat (48 + d) else Char.ofNat (55 + d)

/-- The `n` lowest hexadecimal digits of a value, most significant first. -/
def hexText : Nat → Nat → List Char
  | 0, _ => []
  | n + 1, v => hexText n (v / 16) ++ [hexChar (v % 16)]

/-- A natural number in decimal, written with the canonical digits of R16. -/
def decTextWithin : Nat → Nat → List Char
  | 0, v => [Char.ofNat (48 + v)]
  | fuel + 1, v => if v < 10 then [Char.ofNat (48 + v)] else decTextWithin fuel (v / 10) ++ [Char.ofNat (48 + v % 10)]

/-- A natural number in decimal. -/
def decText (v : Nat) : List Char := decTextWithin v v

/-- `CMD=0xHH VAL=0x<16 hex digits> SLEN=<n> DLEN=<n>`, followed by the SRC bytes when SLEN > 0, as two hex digits each
(R80, notes/assumptions 27). -/
def encodingText (r : Request) (srcBytes : List Byte) : List Char :=
  "CMD=0x".toList ++ hexText 2 r.cmd.toNat ++ " VAL=0x".toList ++ hexText 16 r.val.toNat ++
  " SLEN=".toList ++ decText r.src.len ++ " DLEN=".toList ++ decText r.dst.len ++
  (srcBytes.map (fun b => ' ' :: hexText 2 b.toNat)).flatten

end Sys2Proof.Machine
end

