-- ==== Sys2Proof/Machine/Datapath.lean ====
section
/-! DEFINITION. The reference datapaths with their working registers ACC, SCR, Q and POS, and the width-8 branch form
(spec 10_state.md R36 to R39, 40_decoder.md R94 and R100, 41_encoder.md R115 to R117). The meanings of the commands use the
observable functions of Codec.lean; that the datapaths agree with them is stated among the obligations. -/

namespace Sys2Proof.Machine

/-- `ACC <- 10*ACC + digitVal(b)` in the register of ACC_WIDTH(W) bits (R38, R94). -/
def accStep (w : Width) (acc : BitVec (accWidth w)) (b : Byte) : BitVec (accWidth w) :=
  BitVec.ofNat (accWidth w) (10 * acc.toNat + digitVal b)

/-- The decoder's working state: ACC of W + 4 bits (R38), and how many bytes of SRC it has read and how many multiply-adds it has
done (R103, R166). The two counts are the model's way to count work (DESIGN CHOICE, notes/assumptions 30). -/
structure DecoderWork (w : Width) where
  acc : BitVec (accWidth w)
  reads : Nat
  multiplyAdds : Nat
deriving DecidableEq, Repr

/-- `ACC <- 0`, with no work done yet (R94). -/
def DecoderWork.start (w : Width) : DecoderWork w := { acc := 0, reads := 0, multiplyAdds := 0 }

/-- One `MemRead` of a byte of SRC (R94). -/
def DecoderWork.read {w : Width} (st : DecoderWork w) : DecoderWork w := { st with reads := st.reads + 1 }

/-- `ACC <- 10*ACC + digitVal(b)` (R94). -/
def DecoderWork.fold {w : Width} (st : DecoderWork w) (b : Byte) : DecoderWork w :=
  { st with acc := accStep w st.acc b, multiplyAdds := st.multiplyAdds + 1 }

/-- The loop of R94: read the bytes from left to right and fold them into ACC, until the first non-digit. The Bool says that
there was none. -/
def accLoop {w : Width} (st : DecoderWork w) : List Byte → Bool × DecoderWork w
  | [] => (true, st)
  | b :: s => if isDigit b then accLoop (st.read.fold b) s else (false, st.read)

/-- The overflow-aware last step of R94, for the last byte of an input of maxDigits(W) bytes: steps (1), (2) and (3). The final
multiply-add is skipped at steps (1) and (2). -/
def lastDigitStep {w : Width} (st : DecoderWork w) (b : Byte) : (Nat × Bool) × DecoderWork w :=
  if isDigit b = false then ((0, false), st.read)
  else if st.acc.toNat ≥ cutoff w then ((maxValue w, false), st.read)
  else if (st.read.fold b).acc.toNat > maxValue w then ((maxValue w, false), st.read.fold b)
  else (((st.read.fold b).acc.toNat, true), st.read.fold b)

/-- The run of the reference decoder datapath (R94): its result, and the working state it ends in. -/
def parseRefRun (w : Width) (s : List Byte) : (Nat × Bool) × DecoderWork w :=
  let n := s.length
  if n = 0 then ((0, false), .start w)
  else if n > maxDigits w then ((maxValue w, false), .start w)
  else if n = 1 then (parseDigit (s.getD 0 0#8), (DecoderWork.start w).read)
  else
    let m := if n = maxDigits w then n - 1 else n
    let loop := accLoop (.start w) (s.take m)
    if loop.1 = false then ((0, false), loop.2)
    else if m = n then ((loop.2.acc.toNat, true), loop.2)
    else lastDigitStep loop.2 (s.getD (n - 1) 0#8)

/-- `parseRef(W, SRC, SLEN)`, the reference decoder datapath (R94): the result of its run. -/
def parseRef (w : Width) (s : List Byte) : Nat × Bool := (parseRefRun w s).1

/-- The branches of R100 on three digit values. -/
def u8Branches (d0 d1 d2 : Nat) : Nat × Bool :=
  let ok := (100 * d0 + 10 * d1 + d2, true)
  let overflow := (255, false)
  if d0 ≤ 1 then ok
  else if d0 = 2 then
    if d1 ≤ 4 then ok
    else if d1 = 5 then (if d2 ≤ 5 then ok else overflow)
    else overflow
  else overflow

/-- The specialised width-8 decoder: its possible lengths one by one (R100). -/
def parseU8Specialised : List Byte → Nat × Bool
  | [] => (0, false)
  | [b] => parseDigit b
  | [b0, b1] => if isDigit b0 && isDigit b1 then (10 * digitVal b0 + digitVal b1, true) else (0, false)
  | [b0, b1, b2] =>
    if isDigit b0 && isDigit b1 && isDigit b2 then u8Branches (digitVal b0) (digitVal b1) (digitVal b2) else (0, false)
  | _ => (255, false)

/-- The check LONG_INPUT_VALIDATION adds: the digits of a too long input are looked at, and the result stays
(maxValue(W), false) (R89, C4). -/
def longInput (validate : Bool) (w : Width) (s : List Byte) : Nat × Bool :=
  if validate then (if s.all isDigit then (maxValue w, false) else (maxValue w, false)) else (maxValue w, false)

/-- A decoder with the implementer's two choices made (R10, R89, R100). -/
def parseBuilt (form : Config.U8Form) (validate : Bool) (w : Width) (s : List Byte) : Nat × Bool :=
  if s.length > maxDigits w then longInput validate w s
  else match w, form with
    | .w8, .specialised => parseU8Specialised s
    | w, _ => parseRef w s

/-- The realization's own decoder. -/
def parseRealized (w : Width) (s : List Byte) : Nat × Bool :=
  parseBuilt Config.u8Form Config.longInputValidation w s

/-- The small-value path, for u from 0 to 99 (R116). -/
def smallText (u : Nat) : List Byte :=
  if u < 10 then [digitByte u] else [lutAt (2 * u), lutAt (2 * u + 1)]

/-- The encoder's working state on the general path: SCR of maxDigits(W) bytes, the remaining value Q of W bits and the write
position POS (R37, R39), and how many turns its loop has taken (R120). The count is the model's way to count work (DESIGN CHOICE,
notes/assumptions 30). -/
structure EncoderWork (w : Width) where
  scr : List Byte
  q : BitVec w.bits
  pos : Nat
  turns : Nat
deriving DecidableEq, Repr

/-- `SCR[pos-2] <- LUT[2*t]; SCR[pos-1] <- LUT[2*t+1]; POS <- pos - 2` (R117). -/
def putTwo {w : Width} (st : EncoderWork w) (t : Nat) : EncoderWork w :=
  { st with scr := (st.scr.set (st.pos - 2) (lutAt (2 * t))).set (st.pos - 1) (lutAt (2 * t + 1)), pos := st.pos - 2 }

/-- `SCR[pos-1] <- digitByte(d); POS <- pos - 1` (R117). -/
def putOne {w : Width} (st : EncoderWork w) (d : Nat) : EncoderWork w :=
  { st with scr := st.scr.set (st.pos - 1) (digitByte d), pos := st.pos - 1 }

/-- The loop `while Q > 99` of R117, with a bound on its turns. -/
def encoderLoop {w : Width} : Nat → EncoderWork w → EncoderWork w
  | 0, st => st
  | fuel + 1, st =>
    if st.q.toNat > 99 then
      encoderLoop fuel
        { putTwo st (st.q.toNat % 100) with q := BitVec.ofNat w.bits (st.q.toNat / 100), turns := st.turns + 1 }
    else st

/-- The last step of the general path: the one or two digits left in Q (R117). -/
def encoderTail {w : Width} (st : EncoderWork w) : EncoderWork w :=
  if st.q.toNat < 10 then putOne st st.q.toNat else putTwo st st.q.toNat

/-- The run of the general path from what SCR holds at the start (R117). The loop runs at most nine times (R120). -/
def generalRun (w : Width) (scr : List Byte) (u : Nat) : EncoderWork w :=
  encoderTail (encoderLoop 9 { scr := scr, q := BitVec.ofNat w.bits u, pos := maxDigits w, turns := 0 })

/-- The text the general path leaves in SCR[POS .. maxDigits(W)-1], whatever SCR held before (R36, R117). -/
def generalText (w : Width) (scr : List Byte) (u : Nat) : List Byte :=
  ((generalRun w scr u).scr.take (maxDigits w)).drop (generalRun w scr u).pos

/-- The bytes the reference COPY datapath writes to DST in order (R117); `scr` is what SCR holds at the start. -/
def copyRef (w : Width) (scr : List Byte) (dlen u : Nat) : List Byte :=
  if dlen = 0 then []
  else (if u ≤ 99 then smallText u else generalText w scr u).take dlen

end Sys2Proof.Machine
end

