-- ==== Sys2Proof/Safety.lean ====
section
/-! DEFINITION. What counts as a legal state and a good end of a run, in the terms the claims use
(spec 10_state.md R32 to R35, R40, R44, 60_exceptions.md R139, 70_reset_and_hazards.md R161, R163). -/

namespace Sys2Proof.Machine

/-- What always holds of one instance's registers: STATUS never holds the reserved code (R33); RCNT never exceeds 20 (R35);
a fault's response has RVAL = 0, ROK = 0 and RCNT = 0 (R34, R35); RVALID is 1 exactly when a transaction has ended since reset
(R32, R40). Before the first response, and after a reset, R43 and R44 give STATUS, RVAL, ROK and RCNT no value: there these clauses
hold by the zeros of Response.reset, the model's choice (notes/assumptions 7). -/
def Inst.Legal (x : Inst) : Prop :=
  x.resp.status ≠ 0b11#2 ∧
  x.resp.rcnt.toNat ≤ 20 ∧
  (x.resp.status ≠ statusDone → x.resp.rval = 0 ∧ x.resp.rok = false ∧ x.resp.rcnt = 0) ∧
  (x.rvalid = true ↔ 0 < x.ci)

/-- Transactions that may run at the same time have disjoint buffers, where one of them is a DST (R161). That only the buffers their
commands use count is the model's reading (notes/assumptions 13). -/
def State.BuffersDisjoint (s : State) : Prop :=
  ∀ j k, j ≠ k → (s.inst j).busy = true → (s.inst k).busy = true → (s.inst j).req.conflicts (s.inst k).req = false

/-- Only instances the platform has leave the reset state (R147). That an event for another one is refused, and what the registers
hold in the reset state, are the model's choices (notes/assumptions 7, 8 and 21). -/
def State.InstancesExist (s : State) : Prop :=
  ∀ k, Config.hasInstance k = false → s.inst k = Inst.reset

/-- The invariant of the model: host memory and the list of instances keep their canonical form, every instance is legal, only
existing instances leave the reset state, and buffers of transactions in progress are disjoint. -/
def State.Inv (s : State) : Prop :=
  Memory.wf s.mem = true ∧ Sparse.wf Inst.reset s.insts = true ∧ (∀ k, (s.inst k).Legal) ∧
  s.InstancesExist ∧ s.BuffersDisjoint

/-- The run has ended: the host has no more to do and every transaction has ended. R163 defines the end of a run of commands on
one instance. DESIGN CHOICE (notes/assumptions 31): with several instances the run ends when it has on each, and an event that is
no command (a host read or write, a reset, a `run`) also belongs to the run while it is still to come. -/
def State.runEnded (s : State) : Bool := s.script.isEmpty && s.firstBusy.isNone

/-- A good final state: the run has ended and the fault list is empty (R139, R163). -/
def State.goodFinal (s : State) : Bool := s.runEnded && s.faults.isEmpty

/-- It is the turn of the transaction in progress on instance `k`, and `u` is the state it finds: on its `run` event, which is then
taken; when a request waits for its instance; and when no event is left and it is the first in progress. The three ways are the
model's (notes/assumptions 9 to 11). -/
def State.Turn (s : State) (k : Nat) (u : State) : Prop :=
  (s.inst k).busy = true ∧
  ((∃ es, s.script = .run k :: es ∧ u = s.withScript es) ∨
   (∃ r es, s.script = .issue k r :: es ∧ u = s) ∨
   (s.script = [] ∧ s.firstBusy = some k ∧ u = s))

/-- What an event that is not a transaction leaves of the model's own fields: it is taken from the script, and neither the active
instance nor the count of draws changes. -/
def State.EventTaken (s t : State) (es : List Event) : Prop :=
  t.script = es ∧ t.cur = s.cur ∧ t.draws = s.draws

/-- The source operand of a line, as its command gets it (R77): a literal is written at `lit` before the command, and SRC is those
bytes; a slice `Bk[a:b]` is bytes a to b-1 of buffer k, and nothing is written. -/
def SourceGiven (place : Nat → Nat) (lit : Nat) (src : SrcArg) (before : List Event) (buf : Slice) : Prop :=
  match src with
  | .literal bytes => before = [.poke lit bytes] ∧ buf = { base := lit, len := bytes.length }
  | .slice b => before = [] ∧ buf = { base := place b.buf + b.lo, len := b.hi - b.lo }

/-- The byte of host memory at an address, as the claims read it. -/
def State.byte (s : State) (a : Nat) : Byte := Memory.read s.mem a

/-- What the end of a transaction on the active instance does and leaves, whatever its response, its DST bytes and its fault
record: the instance is idle with its request fields as latched, RVALID = 1 and CI one higher (R32, R40, R42); no other instance
changes (R57); nor do the events to come, the host's readout and the draws. -/
def State.TransactionFrame (s t : State) : Prop :=
  t.active.busy = false ∧ t.active.req = s.active.req ∧ t.active.rvalid = true ∧ t.active.ci = s.active.ci + 1 ∧
  (∀ k, k ≠ s.cur → t.inst k = s.inst k) ∧
  t.cur = s.cur ∧ t.script = s.script ∧ t.readout = s.readout ∧ t.draws = s.draws

/-- The two states have the same host memory, byte for byte. -/
def State.SameMemory (s t : State) : Prop := ∀ a, t.byte a = s.byte a

/-- A transaction that took the fault `f`: the fault response (R137), one record at the end of the fault list with the CI of the
faulting transaction (R129, R139), host memory as it was (R50), and the frame of every transaction (R130). -/
def State.FaultTaken (s t : State) (f : HwFault) : Prop :=
  t.active.resp.status = f.code ∧ t.active.resp.rval = 0 ∧ t.active.resp.rok = false ∧ t.active.resp.rcnt = 0 ∧
  (∃ r : FaultRecord, t.faults = s.faults ++ [r] ∧ r.event = .hw f ∧ r.ci = s.active.ci) ∧
  s.SameMemory t ∧ s.TransactionFrame t

/-- A realization with LEN_BITS-bit length fields can issue this request (D12, I13). -/
def Request.issuable (r : Request) : Prop := r.src.len < 2 ^ Config.lenBits ∧ r.dst.len < 2 ^ Config.lenBits

/-- The PARSE commands with their widths. -/
def parseCommands : List (Instr × Width) :=
  [(.parseU8, .w8), (.parseU16, .w16), (.parseU32, .w32), (.parseU64, .w64)]

/-- The COPY commands with their widths. -/
def copyCommands : List (Instr × Width) :=
  [(.copyU8, .w8), (.copyU16, .w16), (.copyU32, .w32), (.copyU64, .w64)]

end Sys2Proof.Machine
end

