-- ==== Sys2Proof/Certificates/Slice0/Obligations.lean ====
section
/-! DEFINITION. The statements for the provers. Each docstring names the rules of spec/ it formalises. Those about `step` speak of
the model's events (notes/assumptions 9), and those about text take the ASCII codes of R15 (notes/assumptions 1). -/

open Sys2Proof Sys2Proof.Machine

/-! ### Tables and encodings -/

/-- R68: the nine legal command words; every other value of CMD is illegal. -/
def Obligations.NineWordsDecode : Prop :=
  decode 0x00#8 = .ok .parseU8 ∧ decode 0x01#8 = .ok .parseU16 ∧ decode 0x02#8 = .ok .parseU32 ∧
  decode 0x03#8 = .ok .parseU64 ∧ decode 0x40#8 = .ok .copyU8 ∧ decode 0x41#8 = .ok .copyU16 ∧
  decode 0x42#8 = .ok .copyU32 ∧ decode 0x43#8 = .ok .copyU64 ∧ decode 0x80#8 = .ok .digit ∧
  ∀ cmd, cmd ∉ [0x00#8, 0x01#8, 0x02#8, 0x03#8, 0x40#8, 0x41#8, 0x42#8, 0x43#8, 0x80#8] → ∃ why, decode cmd = .error why

/-- R65: a command word with RSV not zero is illegal whatever OP and WSEL hold, and a legal one has RSV zero. With it, as R74 lists
them: OP = 0b11 with RSV zero, DIGIT with a width, and nothing else. -/
def Obligations.IllegalWordsAreThese : Prop :=
  ∀ cmd : BitVec 8,
    (decode cmd = .error .reservedBits ↔ (cmd >>> 2) &&& 0x0F#8 ≠ 0) ∧
    (decode cmd = .error .reservedOp ↔ cmd ∈ [0xC0#8, 0xC1#8, 0xC2#8, 0xC3#8]) ∧
    (decode cmd = .error .digitWithWidth ↔ cmd ∈ [0x81#8, 0x82#8, 0x83#8]) ∧
    ((∃ i, decode cmd = .ok i) ↔
      cmd ∈ [0x00#8, 0x01#8, 0x02#8, 0x03#8, 0x40#8, 0x41#8, 0x42#8, 0x43#8, 0x80#8])

/-- Decode and encode agree both ways (R68, R69): each command word has one meaning. -/
def Obligations.DecodeAndEncodeAgree : Prop :=
  ∀ (i : Instr) (cmd : BitVec 8), i.wellFormed = true → (decode cmd = .ok i ↔ cmd = encode i)

/-- R23: LUT[2v] and LUT[2v+1] are the two decimal digits of v, and the LUT has 200 bytes. -/
def Obligations.LutHoldsTwoDigits : Prop :=
  lut.length = 200 ∧
  ∀ v, v ≤ 99 → lutAt (2 * v) = digitByte (v / 10) ∧ lutAt (2 * v + 1) = digitByte (v % 10)

/-- R22: the closed forms of the width constants, and the two facts about the cutoff (which R22 marks as derived). -/
def Obligations.WidthConstants : Prop :=
  ∀ w : Width,
    maxValue w = 2 ^ w.bits - 1 ∧ maxDigits w = nd (maxValue w) ∧ cutoff w = maxValue w / 10 + 1 ∧
    (∀ r d, cutoff w ≤ r → maxValue w < 10 * r + d) ∧
    (∀ d, 10 * (cutoff w - 1) + d ≤ maxValue w ↔ d ≤ 5)

/-! ### The decoder family -/

/-- R82: PARSE.U8, PARSE.U16, PARSE.U32 and PARSE.U64 complete in every state, DONE, with RVAL and ROK the result of parseUint and
RCNT = 0; they write no byte of memory and take no fault. DIGIT does so with the result of parseDigit whenever VAL < 256. -/
def Obligations.DecoderEndsDone : Prop :=
  (∀ s : State, s.active.req.val.toNat < 256 →
    ∃ t, exec .digit s = .next t ∧
      t.active.resp.status = 0b00#2 ∧
      t.active.resp.rval.toNat = (parseDigit (s.active.req.val.setWidth 8)).1 ∧
      t.active.resp.rok = (parseDigit (s.active.req.val.setWidth 8)).2 ∧
      t.active.resp.rcnt = 0 ∧
      t.faults = s.faults ∧ s.SameMemory t ∧ s.TransactionFrame t) ∧
  ∀ (i : Instr) (w : Width) (s : State), (i, w) ∈ parseCommands →
    ∃ t, exec i s = .next t ∧
      t.active.resp.status = 0b00#2 ∧
      t.active.resp.rval.toNat = (parseUint w (srcOperand s)).1 ∧
      t.active.resp.rok = (parseUint w (srcOperand s)).2 ∧
      t.active.resp.rcnt = 0 ∧
      t.faults = s.faults ∧ s.SameMemory t ∧ s.TransactionFrame t

/-- R87: a decode succeeds, with the value of the digits, exactly when the text has 1 to maxDigits(W) bytes, all digits, and its
value is at most maxValue(W). -/
def Obligations.ParseSucceedsExactly : Prop :=
  ∀ (i : Instr) (w : Width) (s : State), (i, w) ∈ parseCommands →
    ∃ t, exec i s = .next t ∧
      ((t.active.resp.rval.toNat = decVal (srcOperand s) ∧ t.active.resp.rok = true) ↔
        (1 ≤ s.active.req.src.len ∧ s.active.req.src.len ≤ maxDigits w ∧
          (∀ n, n < s.active.req.src.len →
            0x30 ≤ (s.byte (s.active.req.src.base + n)).toNat ∧ (s.byte (s.active.req.src.base + n)).toNat ≤ 0x39) ∧
          decVal (srcOperand s) ≤ maxValue w))

/-- R88: an empty input is (0, false) at every width. -/
def Obligations.ParseRejectsEmpty : Prop :=
  ∀ (i : Instr) (w : Width) (s : State), (i, w) ∈ parseCommands → s.active.req.src.len = 0 →
    ∃ t, exec i s = .next t ∧ t.active.resp.rval = 0 ∧ t.active.resp.rok = false

/-- R89: an input longer than maxDigits(W) is (maxValue(W), false), whatever its bytes are, and LONG_INPUT_VALIDATION does not
change this. -/
def Obligations.ParseLengthOverflows : Prop :=
  (∀ (i : Instr) (w : Width) (s : State), (i, w) ∈ parseCommands → maxDigits w < s.active.req.src.len →
    ∃ t, exec i s = .next t ∧ t.active.resp.rval.toNat = maxValue w ∧ t.active.resp.rok = false) ∧
  (∀ (validate : Bool) (form : Config.U8Form) (w : Width) (text : List Byte), maxDigits w < text.length →
    parseBuilt form validate w text = (maxValue w, false))

/-- R90: a non-digit anywhere in an input of 1 to maxDigits(W) bytes gives (0, false), the last byte of an overflowing one
included. -/
def Obligations.ParseSyntaxErrors : Prop :=
  ∀ (i : Instr) (w : Width) (s : State) (n : Nat), (i, w) ∈ parseCommands →
    s.active.req.src.len ≤ maxDigits w → n < s.active.req.src.len →
    ¬ (0x30 ≤ (s.byte (s.active.req.src.base + n)).toNat ∧ (s.byte (s.active.req.src.base + n)).toNat ≤ 0x39) →
    ∃ t, exec i s = .next t ∧ t.active.resp.rval = 0 ∧ t.active.resp.rok = false

/-- R91: digits only, of length maxDigits(W), with a value above maxValue(W), give (maxValue(W), false); a shorter text of digits
never overflows. -/
def Obligations.ParseMagnitudeOverflows : Prop :=
  ∀ (i : Instr) (w : Width) (s : State), (i, w) ∈ parseCommands →
    (∀ n, n < s.active.req.src.len → isDigit (s.byte (s.active.req.src.base + n)) = true) →
    ∃ t, exec i s = .next t ∧
      (s.active.req.src.len = maxDigits w → maxValue w < decVal (srcOperand s) →
        t.active.resp.rval.toNat = maxValue w ∧ t.active.resp.rok = false) ∧
      (1 ≤ s.active.req.src.len → s.active.req.src.len < maxDigits w →
        decVal (srcOperand s) < maxValue w ∧
        t.active.resp.rval.toNat = decVal (srcOperand s) ∧ t.active.resp.rok = true)

/-- R85: when ok is false the value is 0 (a syntax error: empty, or not too long with a non-digit) or maxValue(W) (an overflow),
and nothing else; when ok is true it is the value of the text, at most maxValue(W). -/
def Obligations.ParseValueByFlag : Prop :=
  ∀ (i : Instr) (w : Width) (s : State), (i, w) ∈ parseCommands →
    ∃ t, exec i s = .next t ∧
      (t.active.resp.rok = false →
        (t.active.resp.rval = 0 ∧ decodeOutcome w (srcOperand s) = .syntaxError) ∨
        (t.active.resp.rval.toNat = maxValue w ∧
          (decodeOutcome w (srcOperand s) = .lengthOverflow ∨ decodeOutcome w (srcOperand s) = .magnitudeOverflow))) ∧
      (t.active.resp.rok = true →
        t.active.resp.rval.toNat = decVal (srcOperand s) ∧ t.active.resp.rval.toNat ≤ maxValue w)

/-- What the host concludes from the response of a PARSE (R41): the value on success, and which of a syntax error and an overflow
otherwise. -/
def Obligations.HostTellsOutcomes : Prop :=
  ∀ (i : Instr) (w : Width) (s : State), (i, w) ∈ parseCommands →
    ∃ t, exec i s = .next t ∧
      hostVerdict t.active.resp =
        match decodeOutcome w (srcOperand s) with
        | .success => .value (decVal (srcOperand s))
        | .syntaxError => .syntaxError
        | .lengthOverflow => .overflow
        | .magnitudeOverflow => .overflow

/-- R92: leading zeros within the length limit do not change a decode; "007" is 7 and zeros are 0 at every width; zeros count
toward the length. -/
def Obligations.ParseIgnoresLeadingZeros : Prop :=
  ∀ w : Width,
    (∀ (n : Nat) (text : List Byte), text ≠ [] → (∀ b ∈ text, isDigit b = true) → n + text.length ≤ maxDigits w →
      parseUint w (List.replicate n 0x30#8 ++ text) = parseUint w text) ∧
    parseUint w [0x30#8, 0x30#8, 0x37#8] = (7, true) ∧
    (∀ n, 1 ≤ n → n ≤ maxDigits w → parseUint w (List.replicate n 0x30#8) = (0, true)) ∧
    (∀ (n : Nat) (text : List Byte), maxDigits w < n + text.length →
      parseUint w (List.replicate n 0x30#8 ++ text) = (maxValue w, false))

/-- The round trip of R104 at the machine: a PARSE.U<W> of the canonical text of v answers v and ok. -/
def Obligations.ParseReadsCanonicalText : Prop :=
  ∀ (i : Instr) (w : Width) (s : State) (v : Nat), (i, w) ∈ parseCommands → v ≤ maxValue w →
    srcOperand s = canon v →
    ∃ t, exec i s = .next t ∧ t.active.resp.rval.toNat = v ∧ t.active.resp.rok = true

/-- R95: the reference decoder datapath, with its accumulator of W + 4 bits, gives the observable result for every text. -/
def Obligations.DecoderDatapathRefines : Prop :=
  ∀ (w : Width) (text : List Byte), parseRef w text = parseUint w text

/-- R89, R100, I1, I2: whatever the implementer chooses for U8_FORM and LONG_INPUT_VALIDATION, the result is the same. -/
def Obligations.DecoderChoicesUnobservable : Prop :=
  ∀ (form : Config.U8Form) (validate : Bool) (w : Width) (text : List Byte),
    parseBuilt form validate w text = parseUint w text

/-- R101: a DIGIT with VAL < 256 completes DONE with the digit's value and ok, or (0, false) for a byte that is no digit; RCNT = 0;
no memory byte and no fault list entry is written. With VAL >= 256 it takes IllegalOperand. Its command word is 0x80. -/
def Obligations.DigitDecodesOneByte : Prop :=
  decode 0x80#8 = .ok .digit ∧
  ∀ s : State,
    (s.active.req.val.toNat < 256 →
      ∃ t, exec .digit s = .next t ∧
        t.active.resp.status = 0b00#2 ∧ t.active.resp.rcnt = 0 ∧
        (if 0x30 ≤ s.active.req.val.toNat ∧ s.active.req.val.toNat ≤ 0x39 then
          t.active.resp.rval.toNat = s.active.req.val.toNat - 0x30 ∧ t.active.resp.rok = true
        else t.active.resp.rval = 0 ∧ t.active.resp.rok = false) ∧
        t.faults = s.faults ∧ s.SameMemory t ∧ s.TransactionFrame t) ∧
    (256 ≤ s.active.req.val.toNat →
      ∃ t, exec .digit s = .next t ∧ s.FaultTaken t (.illegalOperand s.active.req.val))

/-- R93: a one-byte text decodes as DIGIT decodes the byte, at every width. -/
def Obligations.ParseOneByteIsDigit : Prop :=
  ∀ (i : Instr) (w : Width) (s p : State), (i, w) ∈ parseCommands →
    s.active.req.src.len = 1 → p.active.req.val = (s.byte s.active.req.src.base).setWidth 64 →
    ∃ t u, exec i s = .next t ∧ exec .digit p = .next u ∧ t.active.resp = u.active.resp

/-! ### The encoder family -/

/-- R106, R110 for COPY.U8, COPY.U16, COPY.U32, COPY.U64 with VAL < 2^W: the command completes DONE with RVAL = 0, ROK = 1 and RCNT
the number of bytes written; DST[n] is the n-th byte of canon(u) for n below min(DLEN, nd(u)); every other byte of memory is
unchanged (R49), and no fault is taken. -/
def Obligations.CopyWritesLeadingDigits : Prop :=
  ∀ (i : Instr) (w : Width) (s : State), (i, w) ∈ copyCommands → s.active.req.val.toNat < 2 ^ w.bits →
    ∃ t, exec i s = .next t ∧
      t.active.resp.status = 0b00#2 ∧ t.active.resp.rval = 0 ∧ t.active.resp.rok = true ∧
      t.active.resp.rcnt.toNat = min s.active.req.dst.len (nd s.active.req.val.toNat) ∧
      (∀ n, n < min s.active.req.dst.len (nd s.active.req.val.toNat) →
        t.byte (s.active.req.dst.base + n) = (canon s.active.req.val.toNat).getD n 0) ∧
      (∀ a, ¬ (s.active.req.dst.base ≤ a ∧
          a < s.active.req.dst.base + min s.active.req.dst.len (nd s.active.req.val.toNat)) → t.byte a = s.byte a) ∧
      t.faults = s.faults ∧ s.TransactionFrame t

/-- R107: a COPY.U<W> with VAL >= 2^W raises IllegalOperand, writes no DST byte and gives the fault response of R137; COPY.U64
never does. -/
def Obligations.CopyRefusesWideOperand : Prop :=
  (∀ (i : Instr) (w : Width) (s : State), (i, w) ∈ copyCommands → 2 ^ w.bits ≤ s.active.req.val.toNat →
    ∃ t, exec i s = .next t ∧ s.FaultTaken t (.illegalOperand s.active.req.val)) ∧
  (∀ s : State, ∃ t, exec .copyU64 s = .next t ∧ t.faults = s.faults ∧ t.active.resp.status = 0b00#2)

/-- R108: a zero-length buffer gets nothing and RCNT = 0, whatever the operand is. -/
def Obligations.CopyIntoEmptyBuffer : Prop :=
  ∀ (i : Instr) (w : Width) (s : State), (i, w) ∈ copyCommands → s.active.req.dst.len = 0 →
    ∃ t, exec i s = .next t ∧ s.SameMemory t ∧ t.active.resp.rcnt = 0

/-- R111: the count is min(DLEN, nd(u)); it is 0 only when DLEN = 0, and otherwise lies from 1 to min(DLEN, maxDigits(W)). -/
def Obligations.CopyCountInRange : Prop :=
  ∀ (i : Instr) (w : Width) (s : State), (i, w) ∈ copyCommands → s.active.req.val.toNat < 2 ^ w.bits →
    ∃ t, exec i s = .next t ∧
      t.active.resp.rcnt.toNat = min s.active.req.dst.len (nd s.active.req.val.toNat) ∧
      (t.active.resp.rcnt.toNat = 0 → s.active.req.dst.len = 0) ∧
      (s.active.req.dst.len ≠ 0 →
        1 ≤ t.active.resp.rcnt.toNat ∧ t.active.resp.rcnt.toNat ≤ min s.active.req.dst.len (maxDigits w))

/-- R113: truncation changes neither STATUS nor ROK and shows only as RCNT < nd(u); a buffer of maxDigits(W) bytes never
truncates. -/
def Obligations.TruncationShowsInCount : Prop :=
  ∀ (i : Instr) (w : Width) (s : State), (i, w) ∈ copyCommands → s.active.req.val.toNat < 2 ^ w.bits →
    ∃ t, exec i s = .next t ∧ t.active.resp.status = 0b00#2 ∧ t.active.resp.rok = true ∧ t.faults = s.faults ∧
      (t.active.resp.rcnt.toNat < nd s.active.req.val.toNat ↔ s.active.req.dst.len < nd s.active.req.val.toNat) ∧
      (maxDigits w ≤ s.active.req.dst.len → t.active.resp.rcnt.toNat = nd s.active.req.val.toNat)

/-- R118: the reference encoder datapath writes the bytes of copyUint, whatever SCR holds when it starts. -/
def Obligations.EncoderDatapathRefines : Prop :=
  ∀ (w : Width) (scr : List Byte) (dlen u : Nat), scr.length = maxDigits w → u < 2 ^ w.bits →
    copyRef w scr dlen u = copyText dlen u

/-- R54: running the same COPY twice leaves memory and the response as running it once does. -/
def Obligations.CopyIsIdempotent : Prop :=
  ∀ (i : Instr) (w : Width) (s : State), (i, w) ∈ copyCommands →
    ∃ t u, exec i s = .next t ∧ exec i t = .next u ∧ t.SameMemory u ∧ u.active.resp = t.active.resp

/-- R125: a COPY.U<W> of u into a buffer of at least maxDigits(W) bytes, then a PARSE.U<W> of DST[0:RCNT], gives u and ok. The
PARSE may be presented to any instance, with any other request fields. -/
def Obligations.EncodeThenDecode : Prop :=
  ∀ (i j : Instr) (w : Width) (s : State), (i, w) ∈ copyCommands → (j, w) ∈ parseCommands →
    s.active.req.val.toNat < 2 ^ w.bits → maxDigits w ≤ s.active.req.dst.len →
    ∃ t, exec i s = .next t ∧
      ∀ (k : Nat) (r : Request), r.src = { base := s.active.req.dst.base, len := t.active.resp.rcnt.toNat } →
        ∃ u, exec j ((t.withInst k ((t.inst k).latched r)).withCur k) = .next u ∧
          u.active.resp.rval = s.active.req.val ∧ u.active.resp.rok = true

/-- The work of the reference datapaths (R103, R120, R166). Their run on a text reads at most min(SLEN, maxDigits(W)) bytes, none of
a too long one, and does at most maxDigits(W) multiply-adds; the encoder's run on the general path takes ceil((nd(u) - 2) / 2)
turns of its loop, which is 1, 2, 4 and 9 for the largest values; the encoder gives DST at most maxDigits(W) bytes. The counts are
fields of the working state that those runs carry, which is the model's choice (notes/assumptions 30). No rule depends on them,
and `exec` uses the observable functions. -/
def Obligations.DatapathWorkBounded : Prop :=
  (∀ (w : Width) (text : List Byte),
    parseRef w text = (parseRefRun w text).1 ∧
    (parseRefRun w text).2.reads ≤ min text.length (maxDigits w) ∧
    (parseRefRun w text).2.multiplyAdds ≤ maxDigits w ∧
    (maxDigits w < text.length → (parseRefRun w text).2.reads = 0)) ∧
  (∀ (w : Width) (scr : List Byte) (u : Nat), u < 2 ^ w.bits → 99 < u → (generalRun w scr u).turns = (nd u - 2 + 1) / 2) ∧
  (∀ scr : List Byte, (generalRun .w8 scr (maxValue .w8)).turns = 1 ∧ (generalRun .w16 scr (maxValue .w16)).turns = 2 ∧
    (generalRun .w32 scr (maxValue .w32)).turns = 4 ∧ (generalRun .w64 scr (maxValue .w64)).turns = 9) ∧
  (∀ (w : Width) (scr : List Byte) (dlen u : Nat), (copyRef w scr dlen u).length ≤ maxDigits w)

/-! ### Transactions, faults and the fault list -/

/-- R103, R126: every command ends: it answers a next state in every state. -/
def Obligations.EveryCommandEnds : Prop :=
  ∀ (i : Instr) (s : State), ∃ t, exec i s = .next t

/-- R70 and R42: the response and the DST bytes depend on nothing but the fields the command reads: not on the instance, the
earlier transactions, the place of the buffers or the fields it ignores. -/
def Obligations.ResultDependsOnOperandsOnly : Prop :=
  ∀ (i : Instr) (s p : State),
    (i.readsSrc = true → srcOperand s = srcOperand p) →
    (i.readsSrc = false → s.active.req.val = p.active.req.val) →
    (i.writesDst = true → s.active.req.dst.len = p.active.req.dst.len) →
    ∃ t u, exec i s = .next t ∧ exec i p = .next u ∧ t.active.resp = u.active.resp ∧
      (i.writesDst = true → ∀ n, n < t.active.resp.rcnt.toNat →
        t.byte (s.active.req.dst.base + n) = u.byte (p.active.req.dst.base + n))

/-- R47: a decode of an input that is empty or too long does not depend on any byte of memory. -/
def Obligations.LongInputBytesUnread : Prop :=
  ∀ (i : Instr) (w : Width) (s : State) (m : List Host.Cell), (i, w) ∈ parseCommands →
    (s.active.req.src.len = 0 ∨ maxDigits w < s.active.req.src.len) →
    ∃ t u, exec i s = .next t ∧ exec i (s.withMem m) = .next u ∧ t.active.resp = u.active.resp

/-- R129: when the turn of a transaction comes and its command word decodes, the step is that command's `exec` with its instance
active. The three ways a turn comes are the model's (notes/assumptions 9 to 11). -/
def Obligations.StepRunsDecodedCommand : Prop :=
  ∀ (s u : State) (k : Nat) (i : Instr),
    s.Turn k u → decode (s.inst k).req.cmd = .ok i → i.wellFormed = true → step s = exec i (u.withCur k)

/-- R134: a command word with RSV not zero, with OP = 0b11, or with OP = 0b10 and WSEL not zero raises IllegalCommand, whatever VAL,
SRC and DST hold; the response, the record and the frame are those of a fault, in each way the transaction's turn comes. -/
def Obligations.IllegalCommandFaults : Prop :=
  ∀ (s u : State) (k : Nat), s.Turn k u →
    ((s.inst k).req.cmd.extractLsb' 2 4 ≠ 0 ∨ (s.inst k).req.cmd.extractLsb' 6 2 = 0b11#2 ∨
      ((s.inst k).req.cmd.extractLsb' 6 2 = 0b10#2 ∧ (s.inst k).req.cmd.extractLsb' 0 2 ≠ 0)) →
    ∃ t, step s = .next t ∧ (u.withCur k).FaultTaken t (.illegalCommand (s.inst k).req.cmd)

/-- R136: IllegalCommand is checked first and IllegalOperand only for a legal CMD; a transaction raises at most one fault. The
words of R136's two examples are illegal, so VAL plays no part in theirs. -/
def Obligations.IllegalCommandComesFirst : Prop :=
  (∀ (s u : State) (k : Nat), s.Turn k u →
    ∃ t, step s = .next t ∧
      (∀ why, decode (s.inst k).req.cmd = .error why →
        ∃ r, t.faults = s.faults ++ [r] ∧ r.event = .hw (.illegalCommand (s.inst k).req.cmd) ∧ r.ci = (s.inst k).ci) ∧
      (∀ i, decode (s.inst k).req.cmd = .ok i →
        t.faults = s.faults ∨
        ∃ r, t.faults = s.faults ++ [r] ∧ r.event = .hw (.illegalOperand (s.inst k).req.val) ∧ r.ci = (s.inst k).ci)) ∧
  decode 0x44#8 = .error .reservedBits ∧ decode 0x81#8 = .error .digitWithWidth

/-- R128: a transaction ends in one of three ways, and STATUS reports which: DONE with no fault recorded, or one of the two
faults. So it does in each way its turn comes. -/
def Obligations.TransactionEndsThreeWays : Prop :=
  ∀ (s u : State) (k : Nat), s.Turn k u →
    ∃ t, step s = .next t ∧ (u.withCur k).TransactionFrame t ∧
      (((t.inst k).resp.status = 0b00#2 ∧ t.faults = s.faults) ∨
       ((t.inst k).resp.status = 0b01#2 ∧ (u.withCur k).FaultTaken t (.illegalCommand (s.inst k).req.cmd)) ∨
       ((t.inst k).resp.status = 0b10#2 ∧ (u.withCur k).FaultTaken t (.illegalOperand (s.inst k).req.val)))

/-- R40: CI is 0 after reset, at the start and after a reset event; a step that ends a transaction of an instance adds exactly 1
to its CI, and apart from a reset of that instance nothing else changes it. -/
def Obligations.CommandIndexCounts : Prop :=
  (∀ k, (State.reset.inst k).ci = 0) ∧
  (∀ (s t : State) (k : Nat) (es : List Event), s.script = .reset k :: es → step s = .next t → (t.inst k).ci = 0) ∧
  ∀ (s t : State) (k : Nat), step s = .next t → (∀ es, s.script ≠ .reset k :: es) →
    (t.inst k).ci = if (s.inst k).busy = true ∧ (t.inst k).busy = false then (s.inst k).ci + 1 else (s.inst k).ci

/-- R139: no step removes a record of the fault list, or changes one. A step adds at most one, with the CI that the instance it
names had before the step: of a transaction in progress there, or of a host read before its first response. That a record names
its instance is the model's choice (notes/assumptions 16). -/
def Obligations.FaultListOnlyGrows : Prop :=
  ∀ s t : State, step s = .next t →
    t.faults = s.faults ∨
    ∃ r, t.faults = s.faults ++ [r] ∧ r.ci = (s.inst r.inst).ci ∧
      (match r.event with
       | .hw _ => (s.inst r.inst).busy = true ∧ (t.inst r.inst).busy = false
       | .readBeforeResponse _ => (s.inst r.inst).rvalid = false ∧ t.inst r.inst = s.inst r.inst)

/-- R49 and R50, for every step: a byte of host memory changes only because a COPY with a legal operand writes it as one of its
min(DLEN, nd(u)) bytes, because the host writes it, or because a reset interrupts a COPY whose first min(DLEN, maxDigits(W)) bytes
hold it. -/
def Obligations.WhoWritesMemory : Prop :=
  ∀ (s t : State) (a : Nat), step s = .next t → t.byte a ≠ s.byte a →
    (∃ k i w, (s.inst k).busy = true ∧ (t.inst k).busy = false ∧ decode (s.inst k).req.cmd = .ok i ∧ (i, w) ∈ copyCommands ∧
      (s.inst k).req.val.toNat < 2 ^ w.bits ∧ (s.inst k).req.dst.base ≤ a ∧
      (a < (s.inst k).req.dst.base + min (s.inst k).req.dst.len (nd (s.inst k).req.val.toNat) ∨
        (∃ es, s.script = .reset k :: es) ∧
        a < (s.inst k).req.dst.base + min (s.inst k).req.dst.len (maxDigits w))) ∨
    (∃ b bs es, s.script = .poke b bs :: es ∧ b ≤ a ∧ a < b + bs.length)

/-! ### The host's interactions, reset, and several instances -/

/-- R27, R32: a request to an idle instance whose buffers conflict with no transaction in progress elsewhere is latched whole; the
response registers, RVALID and CI keep their values, and nothing else changes. That issuing is an event of its own is the model's
(notes/assumptions 9). -/
def Obligations.IssueLatchesRequest : Prop :=
  ∀ (s : State) (k : Nat) (r : Request) (es : List Event),
    s.script = .issue k r :: es → Config.hasInstance k = true → (s.inst k).busy = false →
    (∀ j, j ≠ k → (s.inst j).busy = true → r.conflicts (s.inst j).req = false) →
    ∃ t, step s = .next t ∧ (t.inst k).busy = true ∧ (t.inst k).req = r ∧ (t.inst k).resp = (s.inst k).resp ∧
      (t.inst k).rvalid = (s.inst k).rvalid ∧ (t.inst k).ci = (s.inst k).ci ∧ (∀ j, j ≠ k → t.inst j = s.inst j) ∧
      s.SameMemory t ∧ t.faults = s.faults ∧ t.readout = s.readout ∧ s.EventTaken t es

/-- R161: a launch is refused when a COPY's DST shares a byte with the DST of a COPY, or the SRC of a PARSE, in progress on another
instance, or a PARSE's SRC with such a DST; two PARSE commands may share SRC bytes. That only buffers the
commands use count is the model's reading (notes/assumptions 13). -/
def Obligations.OverlappingLaunchRefused : Prop :=
  ∀ (s : State) (k j : Nat) (r : Request) (es : List Event) (c d : Instr) (a : Nat),
    s.script = .issue k r :: es → Config.hasInstance k = true → (s.inst k).busy = false → j ≠ k → (s.inst j).busy = true →
    decode r.cmd = .ok c → decode (s.inst j).req.cmd = .ok d →
    ((c.writesDst = true ∧ d.writesDst = true ∧ r.dst.base ≤ a ∧ a < r.dst.base + r.dst.len ∧
        (s.inst j).req.dst.base ≤ a ∧ a < (s.inst j).req.dst.base + (s.inst j).req.dst.len) ∨
      (c.writesDst = true ∧ d.readsSrc = true ∧ r.dst.base ≤ a ∧ a < r.dst.base + r.dst.len ∧
        (s.inst j).req.src.base ≤ a ∧ a < (s.inst j).req.src.base + (s.inst j).req.src.len) ∨
      (c.readsSrc = true ∧ d.writesDst = true ∧ r.src.base ≤ a ∧ a < r.src.base + r.src.len ∧
        (s.inst j).req.dst.base ≤ a ∧ a < (s.inst j).req.dst.base + (s.inst j).req.dst.len) →
      step s = .refused .overlappingBuffers) ∧
    (c.readsSrc = true → d.readsSrc = true → (∀ m, m ≠ k → m ≠ j → (s.inst m).busy = false) →
      ∃ t, step s = .next t ∧ (t.inst k).req = r)

/-- R56, R148: a request to an instance that has a transaction in progress waits: the step ends that transaction first, with the
frame of R130, so no other instance changes and the request is still to come. That the waiting host lets the transaction end is
the model's reading (notes/assumptions 10). -/
def Obligations.BusyInstanceEndsFirst : Prop :=
  ∀ (s : State) (k : Nat) (r : Request) (es : List Event),
    s.script = .issue k r :: es → (s.inst k).busy = true →
    ∃ t, step s = .next t ∧ (s.withCur k).TransactionFrame t ∧ t.script = .issue k r :: es ∧
      (t.inst k).busy = false ∧ (t.inst k).rvalid = true ∧ (t.inst k).ci = (s.inst k).ci + 1 ∧
      (∀ j, j ≠ k → t.inst j = s.inst j)

/-- R165, R150: with no event left, a transaction in progress still ends, with the frame of R130, and with none in progress nothing
changes. What happens when no event is left is the model's choice (notes/assumptions 11): where the instances stand in canonical
order, the lowest-numbered one in progress has its turn. -/
def Obligations.TransactionsEndUnaided : Prop :=
  ∀ s : State, s.script = [] →
    ((∃ k, (s.inst k).busy = true) →
      ∃ t k, step s = .next t ∧ (s.inst k).busy = true ∧ (t.inst k).busy = false ∧ (t.inst k).ci = (s.inst k).ci + 1 ∧
        (∀ j, j ≠ k → t.inst j = s.inst j) ∧ (s.withCur k).TransactionFrame t ∧
        (Sparse.wf Inst.reset s.insts = true → ∀ j, j < k → (s.inst j).busy = false)) ∧
    ((∀ k, (s.inst k).busy = false) → step s = .next s)

/-- R138, R139: a host read of a response register with RVALID = 0 is recorded as ReadBeforeResponse with the register and CI,
returns no value, and the block does not observe it. That the run goes on is the model's reading (notes/assumptions 17), and that
the record names the instance its choice (notes/assumptions 16). -/
def Obligations.ReadBeforeResponseRecorded : Prop :=
  ∀ (s : State) (k : Nat) (reg : RespReg) (es : List Event),
    s.script = .readReg k reg :: es → Config.hasInstance k = true → (s.inst k).rvalid = false →
    ∃ t, step s = .next t ∧
      t.faults = s.faults ++ [{ inst := k, event := .readBeforeResponse reg, ci := (s.inst k).ci }] ∧
      t.readout = .nothing ∧ (∀ j, t.inst j = s.inst j) ∧ s.SameMemory t ∧ s.EventTaken t es

/-- R164: a host read of a response register with RVALID = 1 gets the register's value and changes nothing else; reading the
reserved STATUS code 0b11 is the model's fault (I10, notes/assumptions 18). -/
def Obligations.ReadAfterResponse : Prop :=
  ∀ (s : State) (k : Nat) (reg : RespReg) (es : List Event),
    s.script = .readReg k reg :: es → Config.hasInstance k = true → (s.inst k).rvalid = true →
    (if reg = .status ∧ (s.inst k).resp.status = 0b11#2 then step s = .fault .reservedStatus
     else ∃ (t : State) (v : BitVec 64), step s = .next t ∧ t.readout = .reg v ∧
       (match reg with
        | .status => v.toNat = (s.inst k).resp.status.toNat
        | .rval => v = (s.inst k).resp.rval
        | .rok => v.toNat = if (s.inst k).resp.rok then 1 else 0
        | .rcnt => v.toNat = (s.inst k).resp.rcnt.toNat) ∧
       (∀ j, t.inst j = s.inst j) ∧ s.SameMemory t ∧ t.faults = s.faults ∧ s.EventTaken t es)

/-- R160: the host's write of a byte that a PARSE in progress may read or a COPY in progress may write has no step; any other write
puts its bytes in memory and changes nothing else. The refusal is the model's form of "no step" (notes/assumptions 14). -/
def Obligations.HostWriteKeepsDuty : Prop :=
  ∀ (s : State) (a : Nat) (bs : List Byte) (es : List Event), s.script = .poke a bs :: es →
    let used := ∃ k b, (s.inst k).busy = true ∧ a ≤ b ∧ b < a + bs.length ∧
        (((s.inst k).req.usedSrc.base ≤ b ∧ b < (s.inst k).req.usedSrc.base + (s.inst k).req.usedSrc.len) ∨
         ((s.inst k).req.usedDst.base ≤ b ∧ b < (s.inst k).req.usedDst.base + (s.inst k).req.usedDst.len))
    (used → step s = .refused .bufferInUse) ∧
    (¬ used →
      ∃ t, step s = .next t ∧ (∀ n, n < bs.length → t.byte (a + n) = bs.getD n 0) ∧
        (∀ b, ¬ (a ≤ b ∧ b < a + bs.length) → t.byte b = s.byte b) ∧ (∀ j, t.inst j = s.inst j) ∧ t.faults = s.faults ∧
        t.readout = s.readout ∧ s.EventTaken t es)

/-- R164, R160: the host reads the bytes of a buffer as they stand and changes nothing else; a read of DST bytes of a COPY in
progress has no step (notes/assumptions 14). -/
def Obligations.HostReadKeepsDuty : Prop :=
  ∀ (s : State) (buf : Slice) (es : List Event), s.script = .peek buf :: es →
    let used := ∃ k b, (s.inst k).busy = true ∧ buf.base ≤ b ∧ b < buf.base + buf.len ∧
        (s.inst k).req.usedDst.base ≤ b ∧ b < (s.inst k).req.usedDst.base + (s.inst k).req.usedDst.len
    (used → step s = .refused .bufferInUse) ∧
    (¬ used →
      ∃ t bytes, step s = .next t ∧ t.readout = .bytes bytes ∧ bytes.length = buf.len ∧
        (∀ n, n < buf.len → bytes.getD n 0 = s.byte (buf.base + n)) ∧ (∀ j, t.inst j = s.inst j) ∧
        s.SameMemory t ∧ t.faults = s.faults ∧ s.EventTaken t es)

/-- R152: reset affects no other instance. It leaves its own idle with RVALID = 0 and CI = 0, and keeps the fault list;
a reset outside any COPY in progress writes no byte. -/
def Obligations.ResetOneInstance : Prop :=
  ∀ (s : State) (k : Nat) (es : List Event), s.script = .reset k :: es → Config.hasInstance k = true →
    ∃ t, step s = .next t ∧ (t.inst k).busy = false ∧ (t.inst k).rvalid = false ∧ (t.inst k).ci = 0 ∧
      (∀ j, j ≠ k → t.inst j = s.inst j) ∧ t.faults = s.faults ∧ t.script = es ∧ t.cur = s.cur ∧ t.readout = s.readout ∧
      (((s.inst k).busy = false ∨ ∀ w, decode (s.inst k).req.cmd ≠ .ok (copyOf w)) →
        s.SameMemory t ∧ t.draws = s.draws)

/-- R154: a reset that interrupts a COPY.U<W> with a legal operand leaves every byte outside DST[0 .. min(DLEN, maxDigits(W))-1]
unchanged; those bytes are draws: the model's free values (notes/assumptions 15). -/
def Obligations.ResetDuringCopy : Prop :=
  ∀ (s : State) (k : Nat) (es : List Event) (i : Instr) (w : Width), s.script = .reset k :: es →
    Config.hasInstance k = true → (s.inst k).busy = true → decode (s.inst k).req.cmd = .ok i → (i, w) ∈ copyCommands →
    (s.inst k).req.val.toNat < 2 ^ w.bits →
    ∃ t, step s = .next t ∧ (t.inst k).busy = false ∧ (t.inst k).rvalid = false ∧ (t.inst k).ci = 0 ∧
      (∀ a, ¬ ((s.inst k).req.dst.base ≤ a ∧
          a < (s.inst k).req.dst.base + min (s.inst k).req.dst.len (maxDigits w)) → t.byte a = s.byte a) ∧
      (∀ n, n < min (s.inst k).req.dst.len (maxDigits w) →
        t.byte ((s.inst k).req.dst.base + n) = Config.freeByte (s.draws + n)) ∧
      t.draws = s.draws + min (s.inst k).req.dst.len (maxDigits w)

/-- R57: transactions on two instances, with buffers disjoint as R161 asks, end in either order with the same registers, the same
memory, and the same fault records. -/
def Obligations.InstancesCommute : Prop :=
  ∀ (s : State) (j k : Nat) (es : List Event), j ≠ k → (s.inst j).busy = true → (s.inst k).busy = true →
    (s.inst j).req.conflicts (s.inst k).req = false →
    ∃ t u, core.run 2 (s.withScript (.run j :: .run k :: es)) = .next t ∧
      core.run 2 (s.withScript (.run k :: .run j :: es)) = .next u ∧
      (∀ m, State.inst t m = State.inst u m) ∧ State.SameMemory t u ∧ (State.faults t).Perm (State.faults u)

/-- The invariant of Safety.lean holds at reset. Its clauses on STATUS, RVAL, ROK and RCNT hold there by the zeros the model chose for
registers to which R43 and R44 give no value (notes/assumptions 7). -/
def Obligations.ResetMeetsInvariant : Prop := State.reset.Inv

/-- Every step keeps the invariant: memory and the list of instances keep their canonical form, STATUS is never the reserved code
(R33), RCNT never exceeds 20 (R35), a fault's response is zero (R34, R35), RVALID tells whether CI is above 0 (R32, R40),
only existing instances leave the reset state (R147), and the buffers of transactions in progress are disjoint (R161). Where
RVALID = 0, after a reset event too, the clauses on STATUS, RVAL, ROK and RCNT hold by the zeros the model chose for registers to
which R43 and R44 give no value (notes/assumptions 7); what the request fields hold in the reset state is its choice as well
(notes/assumptions 8). That only the buffers the commands use count is the model's reading (notes/assumptions 13), and that an
event for an instance the platform has not is refused is its choice (notes/assumptions 21). -/
def Obligations.StepKeepsInvariant : Prop :=
  ∀ s t : State, s.Inv → step s = .next t → t.Inv

/-- R43, R153: after reset no transaction is in progress, RVALID = 0 and CI = 0 in every instance, and the fault list is empty. -/
def Obligations.ResetIsIdle : Prop :=
  State.reset.faults = [] ∧
  ∀ k, (State.reset.inst k).busy = false ∧ (State.reset.inst k).rvalid = false ∧ (State.reset.inst k).ci = 0

/-! ### The assembler -/

/-- R76 to R79: a line the assembler accepts gives exactly one command, the one its mnemonic names with the operands it writes, and
nothing but the placing of its literal before it; fields the command ignores are zero and empty (R80). RAW gives CMD and VAL
unchanged (R78). A line it refuses gives none. So a line that is not RAW never gives an illegal command or an out-of-range
operand. Where buffers and literals lie in host memory is the caller's (notes/assumptions 22). -/
def Obligations.AssemblerEmitsOneCommand : Prop :=
  ∀ (place : Nat → Nat) (lit k : Nat) (l : AsmLine),
    (l.wellFormed = false → assembleLine place lit k l = none) ∧
    (l.wellFormed = true →
      ∃ before r, assembleLine place lit k l = some (before ++ [.issue k r]) ∧
        match l with
        | .parse w src =>
          decode r.cmd = .ok (parseOf w) ∧ r.val = 0 ∧ r.dst.len = 0 ∧ SourceGiven place lit src before r.src
        | .copy w dst imm =>
          decode r.cmd = .ok (copyOf w) ∧ r.val.toNat = imm ∧ imm < 2 ^ w.bits ∧ r.src.len = 0 ∧ before = [] ∧
          r.dst = { base := place dst.buf + dst.lo, len := dst.hi - dst.lo }
        | .digit b =>
          decode r.cmd = .ok .digit ∧ r.val.toNat = b ∧ b < 256 ∧ r.src.len = 0 ∧ r.dst.len = 0 ∧ before = []
        | .raw cmd imm src dst =>
          r.cmd.toNat = cmd ∧ r.val.toNat = imm ∧ SourceGiven place lit src before r.src ∧
          r.dst = { base := place dst.buf + dst.lo, len := dst.hi - dst.lo })

/-- R77: each literal of a text is placed in a buffer for its command: no two share a byte, and the later one lies higher.
That they stand in order from `lit` on is the model's choice (notes/assumptions 22). -/
def Obligations.AssemblerKeepsLiteralsApart : Prop :=
  ∀ (place : Nat → Nat) (lit k : Nat) (text : List Char) (es : List Event), assembleProgram place lit k text = some es →
    es.Pairwise (fun e f => ∀ a as b bs, e = .poke a as → f = .poke b bs → a + as.length ≤ b) ∧
    ∀ e ∈ es, (∃ a as, e = .poke a as ∧ lit ≤ a) ∨ ∃ r, e = .issue k r

/-- R80, its example: the encoding of `COPY.U32 B0[0:3], 4294967295`, read from its text. -/
def Obligations.ListingExample : Prop :=
  ∃ l, readLine "COPY.U32 B0[0:3], 4294967295".toList = .command l ∧
    encodingText (requestOf (fun _ => 0) 0 l) [] = "CMD=0x42 VAL=0x00000000FFFFFFFF SLEN=0 DLEN=3".toList
end

