-- ==== Sys2Proof/Laws/Assembler.lean ====
section
/-! SUPPORT. What the assembler gives for a line and for a program. -/

namespace Sys2Proof.Machine

/-- Before its command a line has nothing, or one write of its literal at `lit`. -/
theorem literalOf_cases (lit : Nat) (l : AsmLine) :
    literalOf lit l = [] ∨ ∃ bytes, literalOf lit l = [.poke lit bytes] ∧ bytes.length = literalSize l := by
  cases l with
  | parse w src => cases src with
    | literal bytes => exact .inr ⟨bytes, rfl, rfl⟩
    | slice b => exact .inl rfl
  | copy w dst imm => exact .inl rfl
  | digit b => exact .inl rfl
  | raw cmd imm src dst => cases src with
    | literal bytes => exact .inr ⟨bytes, rfl, rfl⟩
    | slice b => exact .inl rfl

/-- What a line assembles to is its literal and its one request (R79). -/
theorem assembleLine_eq_some {place : Nat → Nat} {lit k : Nat} {l : AsmLine} {es : List Event}
    (h : assembleLine place lit k l = some es) : es = literalOf lit l ++ [.issue k (requestOf place lit l)] := by
  unfold assembleLine at h
  split at h
  · exact (Option.some.inj h).symm
  · cases h

/-- A program's first command line, and the lines after it with the next literal's place. -/
theorem assembleLines_command {place : Nat → Nat} {lit k : Nat} {cs : List Char} {lines : List (List Char)} {l : AsmLine}
    {es : List Event} (hl : readLine cs = .command l) (h : assembleLines place k lit (cs :: lines) = some es) :
    ∃ rest, assembleLines place k (lit + literalSize l) lines = some rest ∧
      es = literalOf lit l ++ [.issue k (requestOf place lit l)] ++ rest := by
  rw [assembleLines, hl] at h
  dsimp only at h
  split at h
  · next a b ha hb => exact ⟨b, hb, by rw [← assembleLine_eq_some ha]; exact (Option.some.inj h).symm⟩
  · cases h

end Sys2Proof.Machine
end

