-- ==== Sys2Proof/Laws/Codec.lean ====
section
/-! SUPPORT. Digits, canonical text and the width constants: the small lemmas of their definitions. -/

namespace Sys2Proof.Machine

/-! ### Widths -/

/-- maxValue(W) = 2^W - 1 (R22). -/
theorem maxValue_eq (w : Width) : maxValue w = 2 ^ w.bits - 1 := by cases w <;> rfl

theorem maxValue_lt (w : Width) : maxValue w < 2 ^ 64 := by cases w <;> decide

theorem le_maxValue_iff {w : Width} {v : Nat} : v ≤ maxValue w ↔ v < 2 ^ w.bits := by
  rw [maxValue_eq]
  have : 0 < 2 ^ w.bits := by positivity
  omega

theorem maxDigits_pos (w : Width) : 1 < maxDigits w := by cases w <;> decide

theorem maxDigits_le (w : Width) : maxDigits w ≤ 20 := by cases w <;> decide

/-- A text shorter than maxDigits(W) never overflows (R91). -/
theorem pow_maxDigits_le (w : Width) : 10 ^ (maxDigits w - 1) ≤ maxValue w := by cases w <;> decide

theorem maxValue_lt_pow (w : Width) : maxValue w < 10 ^ maxDigits w := by cases w <;> decide

theorem two_pow_bits_le (w : Width) : 2 ^ w.bits ≤ 2 ^ 64 := by cases w <;> decide

/-! ### Digits -/

theorem isDigit_iff (b : Byte) : isDigit b = true ↔ 48 ≤ b.toNat ∧ b.toNat ≤ 57 := by
  rw [isDigit, Bool.and_eq_true, decide_eq_true_iff, decide_eq_true_iff]
  rfl

theorem toNat_digitByte {d : Nat} (h : d < 10) : (digitByte d).toNat = 48 + d := by
  simp only [digitByte, asciiZero, BitVec.toNat_ofNat]
  omega

@[simp] theorem isDigit_digitByte {d : Nat} (h : d < 10) : isDigit (digitByte d) = true := by
  rw [isDigit_iff, toNat_digitByte h]; omega

@[simp] theorem digitVal_digitByte {d : Nat} (h : d < 10) : digitVal (digitByte d) = d := by
  simp only [digitVal, toNat_digitByte h, asciiZero]; omega

theorem digitVal_lt {b : Byte} (h : isDigit b = true) : digitVal b < 10 := by
  have := (isDigit_iff b).1 h
  simp only [digitVal, asciiZero]; omega

/-! ### The value of a text -/

theorem decVal_append (s t : List Byte) : decVal (s ++ t) = decVal s * 10 ^ t.length + decVal t := by
  induction s with
  | nil => simp [decVal]
  | cons b s ih => simp only [List.cons_append, decVal, ih, List.length_append, pow_add]; ring

theorem decVal_snoc (s : List Byte) (b : Byte) : decVal (s ++ [b]) = 10 * decVal s + digitVal b := by
  rw [decVal_append]; simp [decVal]; ring

/-- A text of n digits has a value below 10^n. -/
theorem decVal_lt {s : List Byte} (h : ∀ b ∈ s, isDigit b = true) : decVal s < 10 ^ s.length := by
  induction s with
  | nil => simp [decVal]
  | cons b s ih =>
    have hb := digitVal_lt (h b (by simp))
    have hs := ih (fun c hc => h c (by simp [hc]))
    simp only [decVal, List.length_cons, pow_succ]
    nlinarith [Nat.mul_le_mul_right (10 ^ s.length) (Nat.le_of_lt_succ hb)]

/-! ### Canonical text -/

theorem canonWithin_of_lt {v : Nat} (h : v < 10) (fuel : Nat) : canonWithin fuel v = [digitByte v] := by
  cases fuel <;> simp [canonWithin, h]

/-- The bound on the depth does not matter once it is large enough. -/
theorem canonWithin_eq : ∀ (fuel v : Nat), v ≤ fuel → canonWithin fuel v = canon v := by
  have key : ∀ (v f g : Nat), v ≤ f → v ≤ g → canonWithin f v = canonWithin g v := by
    intro v
    induction v using Nat.strong_induction_on with
    | _ v ih =>
      intro f g hf hg
      by_cases h : v < 10
      · rw [canonWithin_of_lt h, canonWithin_of_lt h]
      · obtain ⟨f, rfl⟩ := Nat.exists_eq_succ_of_ne_zero (by omega : f ≠ 0)
        obtain ⟨g, rfl⟩ := Nat.exists_eq_succ_of_ne_zero (by omega : g ≠ 0)
        simp only [canonWithin, h, if_false]
        rw [ih (v / 10) (by omega) f g (by omega) (by omega)]
  exact fun fuel v h => key v fuel v h le_rfl

/-- canon(v) = [digitByte(v)] when v < 10 (R16). -/
theorem canon_of_lt {v : Nat} (h : v < 10) : canon v = [digitByte v] := canonWithin_of_lt h v

/-- canon(v) = canon(v div 10) ++ [digitByte(v mod 10)] when v >= 10 (R16). -/
theorem canon_of_le {v : Nat} (h : 10 ≤ v) : canon v = canon (v / 10) ++ [digitByte (v % 10)] := by
  obtain ⟨f, rfl⟩ := Nat.exists_eq_succ_of_ne_zero (by omega : v ≠ 0)
  rw [canon, canonWithin, if_neg (by omega), canonWithin_eq _ _ (by omega)]

theorem canon_digits (v : Nat) : ∀ b ∈ canon v, isDigit b = true := by
  induction v using Nat.strong_induction_on with
  | _ v ih =>
    intro b hb
    by_cases h : v < 10
    · rw [canon_of_lt h, List.mem_singleton] at hb
      subst hb; exact isDigit_digitByte h
    · rw [canon_of_le (by omega), List.mem_append, List.mem_singleton] at hb
      rcases hb with hb | rfl
      · exact ih _ (by omega) b hb
      · exact isDigit_digitByte (Nat.mod_lt _ (by omega))

/-- The value of the canonical text of v is v. -/
@[simp] theorem decVal_canon (v : Nat) : decVal (canon v) = v := by
  induction v using Nat.strong_induction_on with
  | _ v ih =>
    by_cases h : v < 10
    · simp [canon_of_lt h, decVal, digitVal_digitByte h]
    · rw [canon_of_le (by omega), decVal_snoc, ih _ (by omega), digitVal_digitByte (Nat.mod_lt _ (by omega))]
      omega

theorem nd_pos (v : Nat) : 1 ≤ nd v := by
  by_cases h : v < 10
  · simp [nd, canon_of_lt h]
  · simp [nd, canon_of_le (by omega : 10 ≤ v)]

/-- A value below 10^n has at most n digits, for n at least 1. -/
theorem nd_le : ∀ (n v : Nat), v < 10 ^ (n + 1) → nd v ≤ n + 1 := by
  intro n
  induction n with
  | zero => intro v h; simp [nd, canon_of_lt (by simpa using h : v < 10)]
  | succ n ih =>
    intro v h
    by_cases hv : v < 10
    · simp [nd, canon_of_lt hv]
    · have := ih (v / 10) (by rw [pow_succ] at h; omega)
      simp only [nd, canon_of_le (by omega : 10 ≤ v), List.length_append, List.length_singleton] at this ⊢
      omega

/-- nd(u) <= maxDigits(W) for u <= maxValue(W) (R109). -/
theorem nd_le_maxDigits {w : Width} {u : Nat} (h : u < 2 ^ w.bits) : nd u ≤ maxDigits w := by
  have h1 := maxValue_lt_pow w
  have h2 := le_maxValue_iff.2 h
  have h3 := maxDigits_pos w
  obtain ⟨n, hn⟩ := Nat.exists_eq_succ_of_ne_zero (by omega : maxDigits w ≠ 0)
  rw [hn] at h1 ⊢
  exact nd_le n u (by omega)

@[simp] theorem length_copyText (dlen u : Nat) : (copyText dlen u).length = min dlen (nd u) := by
  simp [copyText, nd]

/-- RCNT fits in 5 bits (R35). -/
theorem length_copyText_le {w : Width} {u : Nat} (dlen : Nat) (h : u < 2 ^ w.bits) : (copyText dlen u).length ≤ 20 := by
  have := nd_le_maxDigits h
  have := maxDigits_le w
  rw [length_copyText]; omega

/-! ### Results of a decode -/

theorem parseUint_lt (w : Width) (s : List Byte) : (parseUint w s).1 < 2 ^ w.bits := by
  have hm := (le_maxValue_iff (w := w)).1 le_rfl
  simp only [parseUint, decodeOutcome]
  split_ifs with h1 h2 h3 h4
  · simp
  · exact hm
  · simp
  · exact hm
  · exact le_maxValue_iff.1 (Nat.le_of_not_gt h4)

theorem parseUint_lt_rval (w : Width) (s : List Byte) : (parseUint w s).1 < 2 ^ 64 :=
  Nat.lt_of_lt_of_le (parseUint_lt w s) (two_pow_bits_le w)

theorem parseDigit_lt (b : Byte) : (parseDigit b).1 < 10 := by
  simp only [parseDigit]
  split
  · exact digitVal_lt ‹_›
  · simp

/-! ### The four outcomes -/

/-- Everything a decode can come to, with the outcome of each case (R84). -/
theorem decodeOutcome_cases (w s) :
   (s = [] ∧ decodeOutcome w s = .syntaxError) ∨ (maxDigits w < s.length ∧ decodeOutcome w s = .lengthOverflow) ∨
   (s ≠ [] ∧ s.length ≤ maxDigits w ∧ (∃ b ∈ s, isDigit b = false) ∧ decodeOutcome w s = .syntaxError) ∨
   (s ≠ [] ∧ s.length ≤ maxDigits w ∧ (∀ b ∈ s, isDigit b = true) ∧ maxValue w < decVal s ∧ decodeOutcome w s = .magnitudeOverflow) ∨
   (s ≠ [] ∧ s.length ≤ maxDigits w ∧ (∀ b ∈ s, isDigit b = true) ∧ decVal s ≤ maxValue w ∧ decodeOutcome w s = .success) := by
  unfold decodeOutcome
  split_ifs with h1 h2 h3 h4
  · simp_all
  · simp_all
  · have : s ≠ [] := by rintro rfl; simp at h1
    simp_all; 
  · have : s ≠ [] := by rintro rfl; simp at h1
    simp_all
  · have : s ≠ [] := by rintro rfl; simp at h1
    simp_all

/-- A text that succeeds (R87). -/
theorem parseUint_success {w s} (h1 : s ≠ []) (h2 : s.length ≤ maxDigits w) (h3 : ∀ b ∈ s, isDigit b = true) (h4 : decVal s ≤ maxValue w) :
   parseUint w s = (decVal s, true) := by
  rcases decodeOutcome_cases w s with ⟨a, b⟩ | ⟨a, b⟩ | ⟨a, a2, ⟨x, hx, hx2⟩, b⟩ | ⟨a, a2, a3, a4, b⟩ | ⟨a, a2, a3, a4, b⟩
  · exact absurd a h1
  · omega
  · simp [h3 x hx] at hx2
  · omega
  · simp [parseUint, b]

/-- A text that overflows by its value (R91). -/
theorem parseUint_magnitude {w s} (h1 : s ≠ []) (h2 : s.length ≤ maxDigits w) (h3 : ∀ b ∈ s, isDigit b = true) (h4 : maxValue w < decVal s) :
   parseUint w s = (maxValue w, false) := by
  rcases decodeOutcome_cases w s with ⟨a, b⟩ | ⟨a, b⟩ | ⟨a, a2, ⟨x, hx, hx2⟩, b⟩ | ⟨a, a2, a3, a4, b⟩ | ⟨a, a2, a3, a4, b⟩
  · exact absurd a h1
  · omega
  · simp [h3 x hx] at hx2
  · simp [parseUint, b]
  · omega

/-- A text that is not too long and not all digits (R88, R90). -/
theorem parseUint_syntax {w s} (h2 : s.length ≤ maxDigits w) (h3 : ¬ ∀ b ∈ s, isDigit b = true) :
   parseUint w s = (0, false) := by
  rcases decodeOutcome_cases w s with ⟨a, b⟩ | ⟨a, b⟩ | ⟨a, a2, ⟨x, hx, hx2⟩, b⟩ | ⟨a, a2, a3, a4, b⟩ | ⟨a, a2, a3, a4, b⟩
  · simp [parseUint, b]
  · omega
  · simp [parseUint, b]
  · exact absurd a3 h3
  · exact absurd a3 h3

/-- A text that is too long (R89). -/
theorem parseUint_long {w s} (h : maxDigits w < s.length) : parseUint w s = (maxValue w, false) := by
  rcases decodeOutcome_cases w s with ⟨a, b⟩ | ⟨a, b⟩ | ⟨a, a2, ⟨x, hx, hx2⟩, b⟩ | ⟨a, a2, a3, a4, b⟩ | ⟨a, a2, a3, a4, b⟩
  · simp [a] at h
  · simp [parseUint, b]
  · omega
  · omega
  · omega

/-- Leading zeros do not change the value of a text. -/
theorem decVal_leading_zeros (n t) : decVal (List.replicate n 0x30#8 ++ t) = decVal t := by
  induction n with
  | zero => simp
  | succ n ih => simp [List.replicate_succ, decVal, ih]; decide

theorem isDigit_zero : isDigit 0x30#8 = true := by decide

/-- A decode of canonical text gives back its value (R104). -/
theorem parseUint_canon {w v} (h : v ≤ maxValue w) : parseUint w (canon v) = (v, true) := by
  have h0 := nd_pos v
  rw [parseUint_success _ _ (canon_digits v) (by simpa), decVal_canon]
  · intro hc; simp [nd, hc] at h0
  · exact nd_le_maxDigits (le_maxValue_iff.1 h)

end Sys2Proof.Machine
end

