-- ==== Sys2Proof/Laws/Datapath.lean ====
section
/-! SUPPORT. What the loops and branches of the reference datapaths compute. -/

namespace Sys2Proof.Machine

/-! ### The decoder's loop -/

@[simp] theorem DecoderWork.start_acc (w : Width) : (DecoderWork.start w).acc = 0 := rfl
@[simp] theorem DecoderWork.start_reads (w : Width) : (DecoderWork.start w).reads = 0 := rfl
@[simp] theorem DecoderWork.start_multiplyAdds (w : Width) : (DecoderWork.start w).multiplyAdds = 0 := rfl

section Work

variable {w : Width} (st : DecoderWork w) (b : Byte)

@[simp] theorem DecoderWork.read_acc : st.read.acc = st.acc := by simp only [DecoderWork.read]
@[simp] theorem DecoderWork.read_reads : st.read.reads = st.reads + 1 := by simp only [DecoderWork.read]
@[simp] theorem DecoderWork.read_multiplyAdds : st.read.multiplyAdds = st.multiplyAdds := by simp only [DecoderWork.read]
@[simp] theorem DecoderWork.fold_acc : (st.fold b).acc = accStep w st.acc b := by simp only [DecoderWork.fold]
@[simp] theorem DecoderWork.fold_reads : (st.fold b).reads = st.reads := by simp only [DecoderWork.fold]
@[simp] theorem DecoderWork.fold_multiplyAdds : (st.fold b).multiplyAdds = st.multiplyAdds + 1 := by simp only [DecoderWork.fold]

/-- The loop of R94 ends without a non-digit exactly when every byte is a digit. -/
theorem accLoop_ok (s : List Byte) : (accLoop st s).1 = s.all isDigit := by
  induction s generalizing st with
  | nil => rfl
  | cons b s ih =>
    rw [accLoop, List.all_cons]
    cases hb : isDigit b
    · rfl
    · simpa using ih _

/-- A multiply-add is exact as long as the total fits in ACC (R38). -/
theorem toNat_accStep {acc : BitVec (accWidth w)} (h : 10 * acc.toNat + digitVal b < 2 ^ accWidth w) :
    (accStep w acc b).toNat = 10 * acc.toNat + digitVal b := by
  rw [accStep, BitVec.toNat_ofNat, Nat.mod_eq_of_lt h]

/-- The loop of R94 folds digits into ACC exactly, as long as the total fits in ACC. -/
theorem accLoop_acc (s : List Byte) (hs : ∀ b ∈ s, isDigit b = true)
    (h : st.acc.toNat * 10 ^ s.length + 10 ^ s.length ≤ 2 ^ accWidth w) :
    (accLoop st s).2.acc.toNat = st.acc.toNat * 10 ^ s.length + decVal s := by
  induction s generalizing st with
  | nil => simp [accLoop, decVal]
  | cons b s ih =>
    have hb := hs b (by simp)
    have hd := digitVal_lt hb
    have hp : 0 < 10 ^ s.length := by positivity
    rw [List.length_cons, pow_succ] at h
    have e := toNat_accStep (w := w) (acc := st.acc) b (by nlinarith)
    rw [accLoop, if_pos hb, ih _ (fun c hc => hs c (by simp [hc]))]
    · simp only [DecoderWork.fold_acc, DecoderWork.read_acc, e, decVal, List.length_cons, pow_succ]; ring
    · simp only [DecoderWork.fold_acc, DecoderWork.read_acc, e]
      nlinarith [Nat.mul_le_mul_right (10 ^ s.length) (Nat.succ_le_of_lt hd)]

/-- The loop reads each byte at most once and does at most one multiply-add for it (R103). -/
theorem accLoop_work (s : List Byte) :
    (accLoop st s).2.reads ≤ st.reads + s.length ∧ (accLoop st s).2.multiplyAdds ≤ st.multiplyAdds + s.length := by
  induction s generalizing st with
  | nil => simp [accLoop]
  | cons b s ih =>
    rw [accLoop, List.length_cons]
    split
    · have := ih (st.read.fold b)
      simp only [DecoderWork.fold_reads, DecoderWork.read_reads, DecoderWork.fold_multiplyAdds,
        DecoderWork.read_multiplyAdds] at this
      omega
    · simp only [DecoderWork.read_reads, DecoderWork.read_multiplyAdds]; omega

/-- The last step reads one byte and does at most one multiply-add (R94). -/
theorem lastDigitStep_work :
    (lastDigitStep st b).2.reads = st.reads + 1 ∧ (lastDigitStep st b).2.multiplyAdds ≤ st.multiplyAdds + 1 := by
  unfold lastDigitStep
  split_ifs <;> simp

end Work

/-- ACC holds the value of any text of maxDigits(W) - 1 digits (R38). -/
theorem pow_le_two_pow_accWidth (w : Width) : 10 ^ (maxDigits w - 1) ≤ 2 ^ accWidth w := by cases w <;> decide

/-- ACC holds the total of the last multiply-add below the cutoff (R38). -/
theorem ten_cutoff_le_two_pow_accWidth (w : Width) : 10 * cutoff w ≤ 2 ^ accWidth w := by cases w <;> decide

/-- The branches of R100 compare the value with 255. -/
theorem u8Branches_eq : ∀ a < 10, ∀ b < 10, ∀ c < 10, u8Branches a b c = if 100*a+10*b+c ≤ 255 then (100*a+10*b+c, true) else (255, false) := by
  intro a ha b hb c hc
  unfold u8Branches; dsimp only
  split_ifs <;> first | rfl | omega

/-! ### The encoder's steps -/

@[simp] theorem putTwo_turns {w : Width} (st : EncoderWork w) (t : Nat) : (putTwo st t).turns = st.turns := by simp only [putTwo]

@[simp] theorem putOne_turns {w : Width} (st : EncoderWork w) (d : Nat) : (putOne st d).turns = st.turns := by simp only [putOne]

@[simp] theorem encoderTail_turns {w : Width} (st : EncoderWork w) : (encoderTail st).turns = st.turns := by
  unfold encoderTail; split <;> simp

/-- Two bytes put below POS are the next two of the text. -/
theorem drop_of_putTwo (l : List Byte) (p : Nat) (x y : Byte) (h2 : 2 ≤ p) (hp : p ≤ l.length) :
   ((l.set (p - 2) x).set (p - 1) y).drop (p - 2) = [x, y] ++ l.drop p := by
  obtain ⟨p, rfl⟩ := Nat.exists_eq_add_of_le h2
  apply List.ext_getElem?
  intro n
  simp only [List.getElem?_drop, List.getElem?_set, List.length_set]
  rcases n with _ | _ | n
  · simp; omega
  · simp; rw [if_pos (by omega), if_pos (by omega)]
  · simp only [List.cons_append, List.nil_append, List.getElem?_cons_succ, List.getElem?_drop]
    rw [if_neg (by omega), if_neg (by omega)]; congr 1; omega

/-- One byte put below POS is the next one of the text. -/
theorem drop_of_putOne (l : List Byte) (p : Nat) (x : Byte) (h2 : 1 ≤ p) (hp : p ≤ l.length) :
   ((l.set (p - 1) x)).drop (p - 1) = [x] ++ l.drop p := by
  obtain ⟨p, rfl⟩ := Nat.exists_eq_add_of_le h2
  apply List.ext_getElem?
  intro n
  simp only [List.getElem?_drop, List.getElem?_set]
  rcases n with _ | n
  · simp; omega
  · simp only [List.cons_append, List.nil_append, List.getElem?_cons_succ, List.getElem?_drop]
    rw [if_neg (by omega)]; congr 1; omega

end Sys2Proof.Machine
end

