-- ==== Sys2Proof/Laws/Decode.lean ====
section
/-! SUPPORT. What the decoder gives: the commands that read SRC or write DST, and the buffers a request uses. -/

namespace Sys2Proof

@[simp] theorem decode_encode_parse (w : Width) : decode (encode (parseOf w)) = .ok (parseOf w) := by cases w <;> decide

@[simp] theorem decode_encode_copy (w : Width) : decode (encode (copyOf w)) = .ok (copyOf w) := by cases w <;> decide

@[simp] theorem copyOf_width (w : Width) : (copyOf w).width = some w := by cases w <;> rfl

@[simp] theorem parseOf_readsSrc (w : Width) : (parseOf w).readsSrc = true := by cases w <;> rfl

@[simp] theorem parseOf_writesDst (w : Width) : (parseOf w).writesDst = false := by cases w <;> rfl

@[simp] theorem copyOf_readsSrc (w : Width) : (copyOf w).readsSrc = false := by cases w <;> rfl

@[simp] theorem copyOf_writesDst (w : Width) : (copyOf w).writesDst = true := by cases w <;> rfl

/-- Every command is a PARSE, a COPY or DIGIT (R69). -/
theorem Instr.cases_family (i : Instr) : (∃ w, i = parseOf w) ∨ (∃ w, i = copyOf w) ∨ i = .digit := by
  cases i
  · exact .inl ⟨.w8, rfl⟩
  · exact .inl ⟨.w16, rfl⟩
  · exact .inl ⟨.w32, rfl⟩
  · exact .inl ⟨.w64, rfl⟩
  · exact .inr (.inl ⟨.w8, rfl⟩)
  · exact .inr (.inl ⟨.w16, rfl⟩)
  · exact .inr (.inl ⟨.w32, rfl⟩)
  · exact .inr (.inl ⟨.w64, rfl⟩)
  · exact .inr (.inr rfl)

namespace Machine

theorem Request.usedSrc_of_reads {r : Request} {i : Instr} (h : decode r.cmd = .ok i) (hi : i.readsSrc = true) :
    r.usedSrc = r.src := by simp [Request.usedSrc, h, hi]

theorem Request.usedDst_of_writes {r : Request} {i : Instr} (h : decode r.cmd = .ok i) (hi : i.writesDst = true) :
    r.usedDst = r.dst := by simp [Request.usedDst, h, hi]

end Machine

end Sys2Proof
end

