-- ==== Sys2Proof/Laws/State.lean ====
section
/-! SUPPORT. What each update of the state does to each field, so that no later proof unfolds a record update. -/

namespace Sys2Proof.Machine

variable (s : State)

@[simp] theorem State.withInst_insts (k : Nat) (x : Inst) : (s.withInst k x).insts = Sparse.set Inst.reset s.insts k x := rfl
@[simp] theorem State.withInst_mem (k : Nat) (x : Inst) : (s.withInst k x).mem = s.mem := rfl
@[simp] theorem State.withInst_faults (k : Nat) (x : Inst) : (s.withInst k x).faults = s.faults := rfl
@[simp] theorem State.withInst_cur (k : Nat) (x : Inst) : (s.withInst k x).cur = s.cur := rfl
@[simp] theorem State.withInst_script (k : Nat) (x : Inst) : (s.withInst k x).script = s.script := rfl
@[simp] theorem State.withInst_readout (k : Nat) (x : Inst) : (s.withInst k x).readout = s.readout := rfl
@[simp] theorem State.withInst_draws (k : Nat) (x : Inst) : (s.withInst k x).draws = s.draws := rfl

@[simp] theorem State.withMem_insts (m : List Host.Cell) : (s.withMem m).insts = s.insts := rfl
@[simp] theorem State.withMem_mem (m : List Host.Cell) : (s.withMem m).mem = m := rfl
@[simp] theorem State.withMem_faults (m : List Host.Cell) : (s.withMem m).faults = s.faults := rfl
@[simp] theorem State.withMem_cur (m : List Host.Cell) : (s.withMem m).cur = s.cur := rfl
@[simp] theorem State.withMem_script (m : List Host.Cell) : (s.withMem m).script = s.script := rfl
@[simp] theorem State.withMem_readout (m : List Host.Cell) : (s.withMem m).readout = s.readout := rfl
@[simp] theorem State.withMem_draws (m : List Host.Cell) : (s.withMem m).draws = s.draws := rfl

@[simp] theorem State.withCur_insts (k : Nat) : (s.withCur k).insts = s.insts := rfl
@[simp] theorem State.withCur_mem (k : Nat) : (s.withCur k).mem = s.mem := rfl
@[simp] theorem State.withCur_faults (k : Nat) : (s.withCur k).faults = s.faults := rfl
@[simp] theorem State.withCur_cur (k : Nat) : (s.withCur k).cur = k := rfl
@[simp] theorem State.withCur_script (k : Nat) : (s.withCur k).script = s.script := rfl
@[simp] theorem State.withCur_readout (k : Nat) : (s.withCur k).readout = s.readout := rfl
@[simp] theorem State.withCur_draws (k : Nat) : (s.withCur k).draws = s.draws := rfl

@[simp] theorem State.withScript_insts (es : List Event) : (s.withScript es).insts = s.insts := rfl
@[simp] theorem State.withScript_mem (es : List Event) : (s.withScript es).mem = s.mem := rfl
@[simp] theorem State.withScript_faults (es : List Event) : (s.withScript es).faults = s.faults := rfl
@[simp] theorem State.withScript_cur (es : List Event) : (s.withScript es).cur = s.cur := rfl
@[simp] theorem State.withScript_script (es : List Event) : (s.withScript es).script = es := rfl
@[simp] theorem State.withScript_readout (es : List Event) : (s.withScript es).readout = s.readout := rfl
@[simp] theorem State.withScript_draws (es : List Event) : (s.withScript es).draws = s.draws := rfl

@[simp] theorem State.withReadout_insts (r : Readout) : (s.withReadout r).insts = s.insts := rfl
@[simp] theorem State.withReadout_mem (r : Readout) : (s.withReadout r).mem = s.mem := rfl
@[simp] theorem State.withReadout_faults (r : Readout) : (s.withReadout r).faults = s.faults := rfl
@[simp] theorem State.withReadout_cur (r : Readout) : (s.withReadout r).cur = s.cur := rfl
@[simp] theorem State.withReadout_script (r : Readout) : (s.withReadout r).script = s.script := rfl
@[simp] theorem State.withReadout_readout (r : Readout) : (s.withReadout r).readout = r := rfl
@[simp] theorem State.withReadout_draws (r : Readout) : (s.withReadout r).draws = s.draws := rfl

@[simp] theorem State.afterDraws_insts (n : Nat) : (s.afterDraws n).insts = s.insts := rfl
@[simp] theorem State.afterDraws_mem (n : Nat) : (s.afterDraws n).mem = s.mem := rfl
@[simp] theorem State.afterDraws_faults (n : Nat) : (s.afterDraws n).faults = s.faults := rfl
@[simp] theorem State.afterDraws_cur (n : Nat) : (s.afterDraws n).cur = s.cur := rfl
@[simp] theorem State.afterDraws_script (n : Nat) : (s.afterDraws n).script = s.script := rfl
@[simp] theorem State.afterDraws_readout (n : Nat) : (s.afterDraws n).readout = s.readout := rfl
@[simp] theorem State.afterDraws_draws (n : Nat) : (s.afterDraws n).draws = s.draws + n := rfl

@[simp] theorem State.recordFault_insts (k : Nat) (e : FaultEvent) (ci : Nat) : (s.recordFault k e ci).insts = s.insts := rfl
@[simp] theorem State.recordFault_mem (k : Nat) (e : FaultEvent) (ci : Nat) : (s.recordFault k e ci).mem = s.mem := rfl
@[simp] theorem State.recordFault_faults (k : Nat) (e : FaultEvent) (ci : Nat) : (s.recordFault k e ci).faults = s.faults ++ [{ inst := k, event := e, ci := ci }] := rfl
@[simp] theorem State.recordFault_cur (k : Nat) (e : FaultEvent) (ci : Nat) : (s.recordFault k e ci).cur = s.cur := rfl
@[simp] theorem State.recordFault_script (k : Nat) (e : FaultEvent) (ci : Nat) : (s.recordFault k e ci).script = s.script := rfl
@[simp] theorem State.recordFault_readout (k : Nat) (e : FaultEvent) (ci : Nat) : (s.recordFault k e ci).readout = s.readout := rfl
@[simp] theorem State.recordFault_draws (k : Nat) (e : FaultEvent) (ci : Nat) : (s.recordFault k e ci).draws = s.draws := rfl

@[simp] theorem State.endTransaction_insts (r : Response) : (s.endTransaction r).insts = Sparse.set Inst.reset s.insts s.cur (s.active.ended r) := rfl
@[simp] theorem State.endTransaction_mem (r : Response) : (s.endTransaction r).mem = s.mem := rfl
@[simp] theorem State.endTransaction_faults (r : Response) : (s.endTransaction r).faults = s.faults := rfl
@[simp] theorem State.endTransaction_cur (r : Response) : (s.endTransaction r).cur = s.cur := rfl
@[simp] theorem State.endTransaction_script (r : Response) : (s.endTransaction r).script = s.script := rfl
@[simp] theorem State.endTransaction_readout (r : Response) : (s.endTransaction r).readout = s.readout := rfl
@[simp] theorem State.endTransaction_draws (r : Response) : (s.endTransaction r).draws = s.draws := rfl

@[simp] theorem State.takeFault_insts (f : HwFault) : (s.takeFault f).insts = Sparse.set Inst.reset s.insts s.cur (s.active.ended (faultResponse f)) := rfl
@[simp] theorem State.takeFault_mem (f : HwFault) : (s.takeFault f).mem = s.mem := rfl
@[simp] theorem State.takeFault_faults (f : HwFault) : (s.takeFault f).faults = s.faults ++ [{ inst := s.cur, event := .hw f, ci := s.active.ci }] := rfl
@[simp] theorem State.takeFault_cur (f : HwFault) : (s.takeFault f).cur = s.cur := rfl
@[simp] theorem State.takeFault_script (f : HwFault) : (s.takeFault f).script = s.script := rfl
@[simp] theorem State.takeFault_readout (f : HwFault) : (s.takeFault f).readout = s.readout := rfl
@[simp] theorem State.takeFault_draws (f : HwFault) : (s.takeFault f).draws = s.draws := rfl

variable (x : Inst)

@[simp] theorem Inst.ended_busy (r : Response) : (x.ended r).busy = false := rfl
@[simp] theorem Inst.ended_req (r : Response) : (x.ended r).req = x.req := rfl
@[simp] theorem Inst.ended_resp (r : Response) : (x.ended r).resp = r := rfl
@[simp] theorem Inst.ended_rvalid (r : Response) : (x.ended r).rvalid = true := rfl
@[simp] theorem Inst.ended_ci (r : Response) : (x.ended r).ci = x.ci + 1 := rfl

@[simp] theorem Inst.latched_busy (r : Request) : (x.latched r).busy = true := rfl
@[simp] theorem Inst.latched_req (r : Request) : (x.latched r).req = r := rfl
@[simp] theorem Inst.latched_resp (r : Request) : (x.latched r).resp = x.resp := rfl
@[simp] theorem Inst.latched_rvalid (r : Request) : (x.latched r).rvalid = x.rvalid := rfl
@[simp] theorem Inst.latched_ci (r : Request) : (x.latched r).ci = x.ci := rfl

@[simp] theorem Inst.reset_busy : Inst.reset.busy = false := rfl
@[simp] theorem Inst.reset_rvalid : Inst.reset.rvalid = false := rfl
@[simp] theorem Inst.reset_ci : Inst.reset.ci = 0 := rfl

@[simp] theorem State.reset_insts : State.reset.insts = [] := rfl
@[simp] theorem State.reset_mem : State.reset.mem = [] := rfl
@[simp] theorem State.reset_faults : State.reset.faults = [] := rfl
@[simp] theorem State.reset_script : State.reset.script = [] := rfl

end Sys2Proof.Machine
end

