-- ==== Sys2Proof/Laws/Ops.lean ====
section
/-! SUPPORT. What the operations on sparse lists, host memory, instances and transactions do: one lemma each, to be cited
instead of unfolding them. -/

namespace Sys2Proof.Machine

section Sparse

variable {α : Type} (d : α)

theorem Sparse.get_of_lt_all {m : List (Nat × α)} {b : Nat} (h : ∀ e ∈ m, b < e.1) : Sparse.get d m b = d := by
  cases m with
  | nil => rfl
  | cons e m =>
    have hb := h e (by simp)
    simp [Sparse.get, hb, Nat.ne_of_lt hb]

theorem Sparse.get_filter_of_lt (m : List (Nat × α)) {a b : Nat} (h : a < b) :
    Sparse.get d (m.filter (fun e => decide (a < e.1))) b = Sparse.get d m b := by
  induction m with
  | nil => rfl
  | cons e m ih =>
    by_cases he : a < e.1
    · simp [he, Sparse.get, ih]
    · have h1 : ¬ b = e.1 := by omega
      have h2 : ¬ b < e.1 := by omega
      simp [he, Sparse.get, ih, h1, h2]

/-- A key whose value is not the unlisted one has an entry. -/
theorem Sparse.mem_of_get_ne {m : List (Nat × α)} {a : Nat} (h : Sparse.get d m a ≠ d) :
    (a, Sparse.get d m a) ∈ m := by
  induction m with
  | nil => exact absurd rfl h
  | cons e m ih =>
    obtain ⟨k, w⟩ := e
    simp only [Sparse.get] at h ⊢
    split at h
    · next hk => simp [hk]
    · next hk =>
      split at h
      · exact absurd rfl h
      · next hlt =>
        simp only [hk, hlt, if_false]
        exact List.mem_cons_of_mem _ (ih h)

variable [DecidableEq α]

/-- Reading back what was written, at every key, in every list. -/
@[simp] theorem Sparse.get_set (m : List (Nat × α)) (a b : Nat) (v : α) :
    Sparse.get d (Sparse.set d m a v) b = if b = a then v else Sparse.get d m b := by
  induction m with
  | nil => by_cases hv : v = d <;> simp [Sparse.set, Sparse.get, hv]
  | cons e m ih =>
    obtain ⟨k, w⟩ := e
    rcases Nat.lt_trichotomy a k with hak | rfl | hka
    · by_cases hv : v = d
      · subst hv
        by_cases hb : b = a
        · subst hb; simp [Sparse.set, Sparse.get, hak, Nat.ne_of_lt hak]
        · simp [Sparse.set, hak, hb]
      · by_cases hb : b = a
        · simp [Sparse.set, Sparse.get, hak, hv, hb]
        · by_cases hlt : b < a
          · have h1 : b < k := by omega
            simp [Sparse.set, Sparse.get, hak, hv, hb, hlt, h1, Nat.ne_of_lt h1]
          · simp [Sparse.set, Sparse.get, hak, hv, hb, hlt]
    · by_cases hv : v = d
      · subst hv
        simp only [Sparse.set, Nat.lt_irrefl, if_false, if_true, Sparse.get]
        by_cases hb : b = a
        · rw [if_pos hb]
          exact Sparse.get_of_lt_all _ (fun e he => by simp at he; omega)
        · rw [if_neg hb, if_neg hb]
          by_cases hlt : b < a
          · rw [if_pos hlt]
            exact Sparse.get_of_lt_all _ (fun e he => by simp at he; omega)
          · rw [if_neg hlt, Sparse.get_filter_of_lt _ _ (by omega)]
      · simp only [Sparse.set, Nat.lt_irrefl, if_false, if_true, hv, Sparse.get]
        split <;> rfl
    · have h1 : ¬ a < k := by omega
      have h2 : ¬ a = k := by omega
      simp only [Sparse.set, h1, h2, if_false, Sparse.get, ih]
      by_cases hb : b = a
      · subst hb; simp [h1, h2]
      · simp [hb]

theorem Sparse.wf_cons {k : Nat} {v : α} {m : List (Nat × α)} :
    Sparse.wf d ((k, v) :: m) = true ↔ v ≠ d ∧ (∀ e ∈ m, k < e.1) ∧ Sparse.wf d m = true := by
  simp [Sparse.wf, and_assoc]

theorem Sparse.wf_filter {m : List (Nat × α)} (p : Nat × α → Bool) (h : Sparse.wf d m = true) :
    Sparse.wf d (m.filter p) = true := by
  induction m with
  | nil => rfl
  | cons e m ih =>
    obtain ⟨k, v⟩ := e
    obtain ⟨hv, hk, hm⟩ := (Sparse.wf_cons d).1 h
    by_cases hp : p (k, v)
    · rw [List.filter_cons_of_pos hp]
      exact (Sparse.wf_cons d).2 ⟨hv, fun e he => hk e (List.mem_filter.1 he).1, ih hm⟩
    · rw [List.filter_cons_of_neg hp]
      exact ih hm

theorem Sparse.keys_set (m : List (Nat × α)) (a : Nat) (v : α) :
    ∀ e ∈ Sparse.set d m a v, e.1 = a ∨ e ∈ m := by
  induction m with
  | nil => by_cases hv : v = d <;> simp [Sparse.set, hv]
  | cons e m ih =>
    obtain ⟨k, w⟩ := e
    intro x hx
    simp only [Sparse.set] at hx
    split at hx
    · split at hx
      · exact .inr hx
      · rcases List.mem_cons.1 hx with rfl | hx
        · exact .inl rfl
        · exact .inr hx
    · split at hx
      · split at hx
        · exact .inr (List.mem_cons_of_mem _ (List.mem_filter.1 hx).1)
        · rcases List.mem_cons.1 hx with rfl | hx
          · exact .inl rfl
          · exact .inr (List.mem_cons_of_mem _ hx)
      · rcases List.mem_cons.1 hx with rfl | hx
        · exact .inr (by simp)
        · exact (ih x hx).imp id (List.mem_cons_of_mem _)

/-- A write keeps the canonical form. -/
theorem Sparse.wf_set {m : List (Nat × α)} (a : Nat) (v : α) (h : Sparse.wf d m = true) :
    Sparse.wf d (Sparse.set d m a v) = true := by
  induction m with
  | nil => by_cases hv : v = d <;> simp [Sparse.set, Sparse.wf, hv]
  | cons e m ih =>
    obtain ⟨k, w⟩ := e
    obtain ⟨hw, hk, hm⟩ := (Sparse.wf_cons d).1 h
    simp only [Sparse.set]
    split
    · next hak =>
      split
      · exact h
      · next hv =>
        refine (Sparse.wf_cons d).2 ⟨hv, fun e he => ?_, h⟩
        rcases List.mem_cons.1 he with rfl | he
        · exact hak
        · exact Nat.lt_trans hak (hk e he)
    · split
      · next _ hak =>
        subst hak
        split
        · exact Sparse.wf_filter d _ hm
        · next hv => exact (Sparse.wf_cons d).2 ⟨hv, hk, hm⟩
      · next h1 h2 =>
        refine (Sparse.wf_cons d).2 ⟨hw, fun e he => ?_, ih hm⟩
        rcases Sparse.keys_set d m a v e he with he | he
        · omega
        · exact hk e he

end Sparse

/-- In a canonical list the entries after one have higher keys. -/
theorem Sparse.lt_of_wf_append {α : Type} [DecidableEq α] {d : α} {as bs : List (Nat × α)} {e : Nat × α}
    (h : Sparse.wf d (as ++ e :: bs) = true) : ∀ f ∈ bs, e.1 < f.1 := by
  induction as with
  | nil => simp only [List.nil_append, Sparse.wf, Bool.and_eq_true, List.all_eq_true, decide_eq_true_eq] at h; exact h.1.2
  | cons a as ih => simp only [List.cons_append, Sparse.wf, Bool.and_eq_true] at h; exact ih h.2

/-! ### Host memory -/

/-- Reading one byte after writing one byte. -/
@[simp] theorem Memory.read_write (m : List Host.Cell) (a b : Nat) (v : Byte) :
    Memory.read (Memory.write m a v) b = if b = a then v else Memory.read m b := by
  simp [Memory.read, Memory.write]

/-- Reading one byte after writing several. -/
theorem Memory.read_writeBytes (bs : List Byte) :
    ∀ (m : List Host.Cell) (a b : Nat), Memory.read (Memory.writeBytes m a bs) b =
      if a ≤ b ∧ b < a + bs.length then bs.getD (b - a) 0 else Memory.read m b := by
  induction bs with
  | nil =>
    intro m a b
    rw [Memory.writeBytes, if_neg (by simp)]
  | cons v bs ih =>
    intro m a b
    rw [Memory.writeBytes, ih, Memory.read_write]
    by_cases hb : b = a
    · subst hb; simp
    · by_cases h : a + 1 ≤ b ∧ b < a + 1 + bs.length
      · have h2 : a ≤ b ∧ b < a + (v :: bs).length := by simp; omega
        have h3 : b - a = (b - (a + 1)) + 1 := by omega
        rw [if_pos h, if_pos h2, h3, List.getD_cons_succ]
      · have h2 : ¬ (a ≤ b ∧ b < a + (v :: bs).length) := by simp; omega
        rw [if_neg h, if_neg h2, if_neg hb]

/-- Bytes outside the written ones read as before. -/
theorem Memory.read_writeBytes_outside {m : List Host.Cell} {a b : Nat} {bs : List Byte}
    (h : ¬ (a ≤ b ∧ b < a + bs.length)) : Memory.read (Memory.writeBytes m a bs) b = Memory.read m b := by
  rw [Memory.read_writeBytes, if_neg h]

/-- A written byte reads back. -/
theorem Memory.read_writeBytes_inside {m : List Host.Cell} {a i : Nat} {bs : List Byte} (h : i < bs.length) :
    Memory.read (Memory.writeBytes m a bs) (a + i) = bs.getD i 0 := by
  rw [Memory.read_writeBytes, if_pos (by omega), Nat.add_sub_cancel_left]

@[simp] theorem Memory.length_readBytes (m : List Host.Cell) (n : Nat) :
    ∀ a, (Memory.readBytes m a n).length = n := by
  induction n with
  | zero => intro a; rfl
  | succ n ih => intro a; simp [Memory.readBytes, ih]

@[simp] theorem Memory.length_readSlice (m : List Host.Cell) (b : Slice) : (Memory.readSlice m b).length = b.len :=
  Memory.length_readBytes m b.len b.base

theorem Memory.getD_readBytes (m : List Host.Cell) (n : Nat) :
    ∀ a i, i < n → (Memory.readBytes m a n).getD i 0 = Memory.read m (a + i) := by
  induction n with
  | zero => intro a i h; omega
  | succ n ih =>
    intro a i h
    cases i with
    | zero => simp [Memory.readBytes]
    | succ i => simp only [Memory.readBytes, List.getD_cons_succ]; rw [ih _ _ (by omega)]; congr 1; omega

/-- Two memories that agree on a range give the same bytes there. -/
theorem Memory.readBytes_congr {m m' : List Host.Cell} (n : Nat) :
    ∀ a, (∀ b, a ≤ b → b < a + n → Memory.read m b = Memory.read m' b) →
      Memory.readBytes m a n = Memory.readBytes m' a n := by
  induction n with
  | zero => intro a _; rfl
  | succ n ih =>
    intro a h
    simp only [Memory.readBytes]
    rw [h a (by omega) (by omega), ih (a + 1) (fun b h1 h2 => h b (by omega) (by omega))]

/-- The bytes just written read back as one sequence. -/
theorem Memory.readBytes_writeBytes (m : List Host.Cell) (a : Nat) (bs : List Byte) :
    Memory.readBytes (Memory.writeBytes m a bs) a bs.length = bs := by
  apply List.ext_getElem (by simp)
  intro i h1 h2
  have h := Memory.getD_readBytes (Memory.writeBytes m a bs) bs.length a i h2
  rw [Memory.read_writeBytes_inside h2] at h
  simpa [List.getD_eq_getElem, h1, h2] using h

theorem Memory.wf_write {m : List Host.Cell} (a : Nat) (v : Byte) (h : Memory.wf m = true) :
    Memory.wf (Memory.write m a v) = true := Sparse.wf_set _ a v h

/-- Every memory operation keeps the canonical form. -/
theorem Memory.wf_writeBytes (bs : List Byte) :
    ∀ {m : List Host.Cell} (a : Nat), Memory.wf m = true → Memory.wf (Memory.writeBytes m a bs) = true := by
  induction bs with
  | nil => intro m a h; exact h
  | cons b bs ih => intro m a h; exact ih (a + 1) (Memory.wf_write a b h)

theorem State.reset_mem_wf : Memory.wf State.reset.mem = true := rfl

/-- Two buffers overlap exactly when they share a byte. -/
theorem Slice.overlaps_iff (x y : Slice) : x.overlaps y = true ↔
    ∃ a, (x.base ≤ a ∧ a < x.base + x.len) ∧ (y.base ≤ a ∧ a < y.base + y.len) := by
  simp only [Slice.overlaps, Bool.and_eq_true, decide_eq_true_eq]
  constructor
  · rintro ⟨⟨⟨h1, h2⟩, h3⟩, h4⟩
    exact ⟨max x.base y.base, by omega⟩
  · rintro ⟨a, h1, h2⟩
    omega

theorem Slice.overlaps_comm (x y : Slice) : x.overlaps y = y.overlaps x := by
  rw [Bool.eq_iff_iff, Slice.overlaps_iff, Slice.overlaps_iff]
  exact exists_congr (fun a => and_comm)

theorem Request.conflicts_comm (r q : Request) : r.conflicts q = q.conflicts r := by
  simp only [Request.conflicts, Slice.overlaps_comm q.usedDst, Slice.overlaps_comm q.usedSrc]
  cases r.usedDst.overlaps q.usedDst <;> cases r.usedDst.overlaps q.usedSrc <;> cases r.usedSrc.overlaps q.usedDst <;> rfl

/-! ### Instances -/

section Instances

variable (s : State)

@[simp] theorem State.withInst_inst (k j : Nat) (x : Inst) :
    (s.withInst k x).inst j = if j = k then x else s.inst j := by
  simp [State.inst]

@[simp] theorem State.withMem_inst (m : List Host.Cell) (j : Nat) : (s.withMem m).inst j = s.inst j := rfl
@[simp] theorem State.withCur_inst (k j : Nat) : (s.withCur k).inst j = s.inst j := rfl
@[simp] theorem State.withScript_inst (es : List Event) (j : Nat) : (s.withScript es).inst j = s.inst j := rfl
@[simp] theorem State.withReadout_inst (r : Readout) (j : Nat) : (s.withReadout r).inst j = s.inst j := rfl
@[simp] theorem State.afterDraws_inst (n j : Nat) : (s.afterDraws n).inst j = s.inst j := rfl
@[simp] theorem State.recordFault_inst (k : Nat) (e : FaultEvent) (ci j : Nat) :
    (s.recordFault k e ci).inst j = s.inst j := rfl
@[simp] theorem State.withMem_active (m : List Host.Cell) : (s.withMem m).active = s.active := rfl
@[simp] theorem State.withCur_active (k : Nat) : (s.withCur k).active = s.inst k := rfl
@[simp] theorem State.withScript_active (es : List Event) : (s.withScript es).active = s.active := rfl
@[simp] theorem State.reset_inst (k : Nat) : State.reset.inst k = Inst.reset := rfl

/-- The end of a transaction writes the active instance's response, CI, RVALID and busy bit, and no other instance (R32, R40). -/
@[simp] theorem State.endTransaction_inst (r : Response) (j : Nat) :
    (s.endTransaction r).inst j = if j = s.cur then s.active.ended r else s.inst j := by
  simp [State.endTransaction]

@[simp] theorem State.endTransaction_active (r : Response) : (s.endTransaction r).active = s.active.ended r := by
  simp [State.active, State.endTransaction_inst]

/-- Taking a fault writes the active instance's response, CI, RVALID and busy bit, and no other instance (R130, R137). -/
@[simp] theorem State.takeFault_inst (f : HwFault) (j : Nat) :
    (s.takeFault f).inst j = if j = s.cur then s.active.ended (faultResponse f) else s.inst j := by
  simp [State.takeFault]

/-- An instance that is busy is listed. -/
theorem State.mem_insts_of_busy {s : State} {k : Nat} (h : (s.inst k).busy = true) : (k, s.inst k) ∈ s.insts := by
  apply Sparse.mem_of_get_ne
  intro he
  have : s.inst k = Inst.reset := he
  rw [this] at h
  exact absurd h (by decide)

/-- `anyBusy` says what its name says. -/
theorem State.anyBusy_iff (p : Nat → Request → Bool) :
    s.anyBusy p = true ↔ ∃ k, (s.inst k).busy = true ∧ p k (s.inst k).req = true := by
  simp only [State.anyBusy, List.any_eq_true, Bool.and_eq_true]
  constructor
  · rintro ⟨e, _, h⟩; exact ⟨e.1, h⟩
  · rintro ⟨k, h1, h2⟩; exact ⟨(k, s.inst k), State.mem_insts_of_busy h1, h1, h2⟩

/-- The instance `firstBusy` names has a transaction in progress. -/
theorem State.busy_of_firstBusy {s : State} {k : Nat} (h : s.firstBusy = some k) : (s.inst k).busy = true := by
  simp only [State.firstBusy, Option.map_eq_some_iff] at h
  obtain ⟨e, he, rfl⟩ := h
  exact List.find?_some (p := fun e : Nat × Inst => (s.inst e.1).busy) he

/-- `firstBusy` names none exactly when every instance is idle. -/
theorem State.firstBusy_eq_none : s.firstBusy = none ↔ ∀ k, (s.inst k).busy = false := by
  simp only [State.firstBusy, Option.map_eq_none_iff, List.find?_eq_none]
  constructor
  · intro h k
    by_contra hk
    exact h _ (State.mem_insts_of_busy (s := s) (k := k) (by simpa using hk)) (by simpa using hk)
  · intro h e _
    simp [h e.1]

/-- In a canonical list of instances, `firstBusy` names the lowest-numbered one. -/
theorem State.idle_of_lt_firstBusy {s : State} {j k : Nat} (hw : Sparse.wf Inst.reset s.insts = true)
    (h : s.firstBusy = some k) (hj : j < k) : (s.inst j).busy = false := by
  by_contra hb
  rw [Bool.not_eq_false] at hb
  simp only [State.firstBusy, Option.map_eq_some_iff] at h
  obtain ⟨e, he, rfl⟩ := h
  obtain ⟨_, as, bs, hl, has⟩ := List.find?_eq_some_iff_append.1 he
  have hm := State.mem_insts_of_busy hb
  rw [hl] at hm hw
  rcases List.mem_append.1 hm with hm | hm
  · have := has _ hm; simp [hb] at this
  · rcases List.mem_cons.1 hm with rfl | hm
    · omega
    · have := Sparse.lt_of_wf_append hw _ hm; dsimp only at this; omega

end Instances

end Sys2Proof.Machine
end

