-- ==== Sys2Proof/Laws/PerInstr.lean ====
section
/-! SUPPORT. What holds of every command as syntax, one lemma a command (spec 30_encoding.md R64 to R70). -/

namespace Sys2Proof.Laws.Encoding

/-- A command is well formed, its word has RSV = 0b0000 (R65), OP its own (R67) and WSEL the code of its width, 0b00 where it has
none (R66), and it does not both read SRC and write DST (R70). -/
def Statement (i : Instr) : Prop :=
  i.wellFormed = true ∧ rsvField (encode i) = 0b0000#4 ∧ opField (encode i) = i.op ∧
  wselField (encode i) = (match i.width with
    | some w => wselOfWidth w
    | none => 0b00#2) ∧
  (i.readsSrc && i.writesDst) = false

theorem parseU8 : Statement .parseU8 := by unfold Statement; decide

theorem parseU16 : Statement .parseU16 := by unfold Statement; decide

theorem parseU32 : Statement .parseU32 := by unfold Statement; decide

theorem parseU64 : Statement .parseU64 := by unfold Statement; decide

theorem copyU8 : Statement .copyU8 := by unfold Statement; decide

theorem copyU16 : Statement .copyU16 := by unfold Statement; decide

theorem copyU32 : Statement .copyU32 := by unfold Statement; decide

theorem copyU64 : Statement .copyU64 := by unfold Statement; decide

theorem digit : Statement .digit := by unfold Statement; decide

end Sys2Proof.Laws.Encoding
end

