-- ==== Sys2Proof/Laws/Step.lean ====
section
/-! SUPPORT. What the meanings and the step can do: one lemma each, to be cited instead of unfolding them. -/

namespace Sys2Proof.Machine

/-- `exec` of PARSE.U<W> is one operation. -/
theorem exec_parseOf (w : Width) (s : State) : exec (parseOf w) s = .next (parseTransaction w s) := by cases w <;> rfl

/-- `exec` of COPY.U<W> is one operation. -/
theorem exec_copyOf (w : Width) (s : State) : exec (copyOf w) s = .next (copyTransaction w s) := by cases w <;> rfl

theorem exec_digit (s : State) : exec .digit s = .next (digitTransaction s) := rfl

/-- A COPY whose operand is legal (R106, R107). -/
theorem copyTransaction_of_lt {w : Width} {s : State} (h : s.active.req.val.toNat < 2 ^ w.bits) :
    copyTransaction w s =
      (s.withMem (Memory.writeBytes s.mem s.active.req.dst.base (copyText s.active.req.dst.len s.active.req.val.toNat))).endTransaction
        (doneResponse 0 true (copyText s.active.req.dst.len s.active.req.val.toNat).length) := by
  simp [copyTransaction, copyOperand, h, dlen, rokOfCopy]

/-- A COPY whose operand is out of range (R107, R135). -/
theorem copyTransaction_of_le {w : Width} {s : State} (h : 2 ^ w.bits ≤ s.active.req.val.toNat) :
    copyTransaction w s = s.takeFault (.illegalOperand s.active.req.val) := by
  simp [copyTransaction, copyOperand, Nat.not_lt.2 h]

/-- A DIGIT whose operand is legal (R101). -/
theorem digitTransaction_of_lt {s : State} (h : s.active.req.val.toNat < 256) :
    digitTransaction s =
      s.endTransaction (doneResponse (parseDigit (s.active.req.val.extractLsb' 0 8)).1
        (parseDigit (s.active.req.val.extractLsb' 0 8)).2 0) := by
  simp [digitTransaction, digitOperand, h, rokOfDecode]

/-- A DIGIT whose operand is out of range (R101, R135). -/
theorem digitTransaction_of_le {s : State} (h : 256 ≤ s.active.req.val.toNat) :
    digitTransaction s = s.takeFault (.illegalOperand s.active.req.val) := by
  simp [digitTransaction, digitOperand, Nat.not_lt.2 h]

/-- Everything a command can do: it ends the active instance's transaction with a DONE response whose RVAL and RCNT are in range,
after writing bytes of DST if it is a COPY; or it takes the fault IllegalOperand. -/
theorem exec_cases (i : Instr) (s : State) :
    (∃ v ok k bs, exec i s =
        .next ((s.withMem (Memory.writeBytes s.mem s.active.req.dst.base bs)).endTransaction (doneResponse v ok k)) ∧
      k ≤ 20 ∧ bs.length ≤ s.active.req.dst.len ∧ (i.writesDst = false → bs = [])) ∨
    exec i s = .next (s.takeFault (.illegalOperand s.active.req.val)) := by
  rcases i.cases_family with ⟨w, rfl⟩ | ⟨w, rfl⟩ | rfl
  · exact .inl ⟨_, _, 0, [], exec_parseOf w s, by omega, by simp, fun _ => rfl⟩
  · rcases Nat.lt_or_ge s.active.req.val.toNat (2 ^ w.bits) with h | h
    · exact .inl ⟨0, true, _, _, by rw [exec_copyOf, copyTransaction_of_lt h], length_copyText_le _ h,
        by rw [length_copyText]; omega, by simp⟩
    · exact .inr (by rw [exec_copyOf, copyTransaction_of_le h])
  · rcases Nat.lt_or_ge s.active.req.val.toNat 256 with h | h
    · exact .inl ⟨_, _, 0, [], by rw [exec_digit, digitTransaction_of_lt h]; rfl, by omega, by simp, fun _ => rfl⟩
    · exact .inr (by rw [exec_digit, digitTransaction_of_le h])

/-- Every command answers a next state (R103, R126). -/
theorem exec_next (i : Instr) (s : State) : ∃ t, exec i s = .next t := by
  rcases exec_cases i s with ⟨v, ok, k, bs, h, _⟩ | h
  · exact ⟨_, h⟩
  · exact ⟨_, h⟩

/-- The outcome of the transaction in progress on instance `k`. -/
def transactionOutcome (k : Nat) (s : State) : Host.Outcome State Fault Refusal :=
  match beginTransaction k s with
  | .answer o => o
  | .perform i t => exec i t

theorem transactionOutcome_legal {k : Nat} {s : State} {i : Instr} (h : decode (s.inst k).req.cmd = .ok i) :
    transactionOutcome k s = exec i (s.withCur k) := by
  simp [transactionOutcome, beginTransaction, h]

theorem transactionOutcome_illegal {k : Nat} {s : State} {e : IllegalWord} (h : decode (s.inst k).req.cmd = .error e) :
    transactionOutcome k s = .next ((s.withCur k).takeFault (.illegalCommand (s.inst k).req.cmd)) := by
  simp [transactionOutcome, beginTransaction, h]

/-- What a step does, by the event that comes next. -/
theorem step_eq (s : State) : step s =
    match s.script with
    | [] => (match s.firstBusy with
      | none => .next s
      | some k => transactionOutcome k s)
    | .issue k r :: es => if (s.inst k).busy then transactionOutcome k s else hostIssue k r (s.withScript es)
    | .run k :: es => if (s.inst k).busy then transactionOutcome k (s.withScript es) else .next (s.withScript es)
    | .readReg k reg :: es => hostReadReg k reg (s.withScript es)
    | .poke a bs :: es => hostPoke a bs (s.withScript es)
    | .peek b :: es => hostPeek b (s.withScript es)
    | .reset k :: es => hostReset k (s.withScript es) := by
  simp only [step, nextMove, transactionOutcome]
  cases s.script with
  | nil => dsimp only; cases s.firstBusy <;> rfl
  | cons e es =>
    cases e with
    | issue k r => dsimp only; cases (s.inst k).busy <;> rfl
    | run k => dsimp only; cases (s.inst k).busy <;> rfl
    | readReg | poke | peek | reset => rfl

/-- A `run` event of a busy instance is that instance's transaction. -/
theorem step_run {s : State} {k : Nat} {es : List Event} (hs : s.script = .run k :: es) (hb : (s.inst k).busy = true) :
    step s = transactionOutcome k (s.withScript es) := by
  rw [step_eq, hs]; simp [hb]

end Sys2Proof.Machine
end

