-- ==== Sys2Proof/Laws/Transaction.lean ====
section
/-! SUPPORT. What a transaction and a step can do, in the terms of Safety.lean. -/

namespace Sys2Proof.Machine

/-! ### The commands of a family -/

theorem eq_parseOf_of_mem {i w} (h : (i, w) ∈ parseCommands) : i = parseOf w := by
  simp [parseCommands] at h
  rcases h with ⟨rfl, rfl⟩ | ⟨rfl, rfl⟩ | ⟨rfl, rfl⟩ | ⟨rfl, rfl⟩ <;> rfl

theorem eq_copyOf_of_mem {i w} (h : (i, w) ∈ copyCommands) : i = copyOf w := by
  simp [copyCommands] at h
  rcases h with ⟨rfl, rfl⟩ | ⟨rfl, rfl⟩ | ⟨rfl, rfl⟩ | ⟨rfl, rfl⟩ <;> rfl

theorem copyOf_mem (w) : (copyOf w, w) ∈ copyCommands := by cases w <;> decide

/-! ### Operands -/

theorem length_srcOperand (s : State) : (srcOperand s).length = s.active.req.src.len := by simp [srcOperand]

theorem getD_srcOperand (s : State) (n) (h : n < s.active.req.src.len) : (srcOperand s).getD n 0 = s.byte (s.active.req.src.base + n) := by
  rw [srcOperand, Memory.readSlice, Memory.getD_readBytes _ _ _ _ h]; rfl

theorem srcOperand_all_digits (s : State) : (∀ b ∈ srcOperand s, isDigit b = true) ↔ ∀ n, n < s.active.req.src.len → isDigit (s.byte (s.active.req.src.base + n)) = true := by
  constructor
  · intro h n hn
    rw [← getD_srcOperand s n hn]
    have : n < (srcOperand s).length := by rw [length_srcOperand]; exact hn
    rw [List.getD_eq_getElem _ _ this]
    exact h _ (List.getElem_mem _)
  · intro h b hb
    obtain ⟨n, hn, rfl⟩ := List.getElem_of_mem hb
    have := h n (by rwa [length_srcOperand] at hn)
    rwa [← getD_srcOperand s n (by rwa [length_srcOperand] at hn), List.getD_eq_getElem _ _ hn] at this

/-! ### Frames -/

/-- The end of a transaction keeps the frame of R130, whatever it writes to memory. -/
theorem endTransaction_frame (s : State) (m) (r) : s.TransactionFrame ((s.withMem m).endTransaction r) := by
  simp only [State.TransactionFrame, State.endTransaction_active, State.withMem_active, Inst.ended_busy, Inst.ended_req, Inst.ended_rvalid, Inst.ended_ci, State.endTransaction_inst, State.withMem_inst]
  simp +contextual

/-- Taking a fault does everything R129 and R137 say, and nothing else. -/
theorem takeFault_faultTaken (s : State) (f) : s.FaultTaken (s.takeFault f) f := by
  simp only [State.FaultTaken, State.TransactionFrame]
  refine ⟨?_, ?_, ?_, ?_, ⟨_, State.takeFault_faults s f, rfl, rfl⟩, ?_⟩
  all_goals simp +contextual [State.takeFault, State.active, faultResponse, State.SameMemory, State.byte, Inst.ended, State.inst]

theorem State.TransactionFrame.cur_eq {k} {s t : State} (h : (s.withCur k).TransactionFrame t) : t.cur = k := h.2.2.2.2.2.1

theorem State.TransactionFrame.inst_eq {k} {s t : State} (h : (s.withCur k).TransactionFrame t) : (t.inst k).busy = false ∧ (t.inst k).req = (s.inst k).req ∧ (t.inst k).rvalid = true ∧ (t.inst k).ci = (s.inst k).ci + 1 ∧ ∀ j, j ≠ k → t.inst j = s.inst j := by
  have hc := State.TransactionFrame.cur_eq h
  obtain ⟨a, b, c, d, e, _⟩ := h
  simp only [State.active, hc] at a b c d
  exact ⟨a, b, c, d, e⟩

/-! ### Transactions -/

/-- A COPY with a legal operand (R106). -/
theorem exec_copy_legal {i w} {s : State} (h : (i, w) ∈ copyCommands) (hv : s.active.req.val.toNat < 2 ^ w.bits) :
   exec i s = .next ((s.withMem (Memory.writeBytes s.mem s.active.req.dst.base (copyText s.active.req.dst.len s.active.req.val.toNat))).endTransaction
        (doneResponse 0 true (min s.active.req.dst.len (nd s.active.req.val.toNat)))) := by
  rw [eq_copyOf_of_mem h, exec_copyOf, copyTransaction_of_lt hv, length_copyText]

/-- A COPY with an operand that does not fit its width (R107). -/
theorem exec_copy_wide {i w} {s : State} (h : (i, w) ∈ copyCommands) (hv : 2 ^ w.bits ≤ s.active.req.val.toNat) :
   exec i s = .next (s.takeFault (.illegalOperand s.active.req.val)) := by
  rw [eq_copyOf_of_mem h, exec_copyOf, copyTransaction_of_le hv]

/-- RCNT holds the count exactly (R35). -/
theorem toNat_rcnt {w : Width} {u : Nat} (d) (h : u < 2 ^ w.bits) : (BitVec.ofNat 5 (min d (nd u))).toNat = min d (nd u) := by
  have := nd_le_maxDigits h
  have := maxDigits_le w
  rw [BitVec.toNat_ofNat, Nat.mod_eq_of_lt]; omega

/-- Everything the transaction of instance `k` can do. -/
theorem transactionOutcome_cases (k : Nat) (s : State) :
   ∃ t, transactionOutcome k s = .next t ∧ (s.withCur k).TransactionFrame t ∧
    ((∃ v ok c bs, t = ((s.withCur k).withMem (Memory.writeBytes s.mem (s.inst k).req.dst.base bs)).endTransaction (doneResponse v ok c) ∧ c ≤ 20 ∧
        (bs = [] ∨ ∃ i w, decode (s.inst k).req.cmd = .ok i ∧ (i, w) ∈ copyCommands ∧ (s.inst k).req.val.toNat < 2 ^ w.bits ∧ bs.length = min (s.inst k).req.dst.len (nd (s.inst k).req.val.toNat))) ∨
     (t = (s.withCur k).takeFault (.illegalCommand (s.inst k).req.cmd)) ∨ (t = (s.withCur k).takeFault (.illegalOperand (s.inst k).req.val))) := by
  rcases hd : decode (s.inst k).req.cmd with e | i
  · exact ⟨_, transactionOutcome_illegal hd, (takeFault_faultTaken _ _).2.2.2.2.2.2, .inr (.inl rfl)⟩
  · rw [transactionOutcome_legal hd]
    rcases i.cases_family with ⟨w, rfl⟩ | ⟨w, rfl⟩ | rfl
    · exact ⟨_, exec_parseOf w _, endTransaction_frame (s.withCur k) s.mem _, .inl ⟨_, _, 0, [], rfl, by omega, .inl rfl⟩⟩
    · rcases Nat.lt_or_ge (s.inst k).req.val.toNat (2 ^ w.bits) with h | h
      · refine ⟨_, exec_copy_legal (copyOf_mem w) h, endTransaction_frame _ _ _, .inl ⟨_, _, _, _, rfl, ?_, .inr ⟨_, w, rfl, copyOf_mem w, h, by rw [length_copyText]; rfl⟩⟩⟩
        have := length_copyText_le (w := w) (s.inst k).req.dst.len h
        rwa [length_copyText] at this
      · exact ⟨_, exec_copy_wide (copyOf_mem w) h, (takeFault_faultTaken _ _).2.2.2.2.2.2, .inr (.inr rfl)⟩
    · rcases Nat.lt_or_ge (s.inst k).req.val.toNat 256 with h | h
      · exact ⟨_, (exec_digit _).trans (congrArg _ (digitTransaction_of_lt h)), endTransaction_frame (s.withCur k) s.mem _, .inl ⟨_, _, 0, [], rfl, by omega, .inl rfl⟩⟩
      · exact ⟨_, (exec_digit _).trans (congrArg _ (digitTransaction_of_le h)), (takeFault_faultTaken _ _).2.2.2.2.2.2, .inr (.inr rfl)⟩

/-! ### The turn of a transaction -/

/-- When a transaction has its turn, the step is that transaction (R129). -/
theorem State.Turn.step_eq {s u : State} {k : Nat} (h : s.Turn k u) : step s = transactionOutcome k u := by
  obtain ⟨hb, ⟨es, hs, rfl⟩ | ⟨r, es, hs, rfl⟩ | ⟨hs, hf, rfl⟩⟩ := h
  · exact step_run hs hb
  · rw [Machine.step_eq, hs]; simp [hb]
  · rw [Machine.step_eq, hs]; simp [hf]

/-- The state a turn finds differs at most in the events to come. -/
theorem State.Turn.eq_withScript {s u : State} {k : Nat} (h : s.Turn k u) : ∃ es, u = s.withScript es := by
  obtain ⟨_, ⟨es, _, rfl⟩ | ⟨_, _, _, rfl⟩ | ⟨_, _, rfl⟩⟩ := h
  · exact ⟨es, rfl⟩
  · exact ⟨_, rfl⟩
  · exact ⟨_, rfl⟩

/-! ### Reset and draws -/

/-- The state a reset of instance `k` leaves. -/
def afterReset (k : Nat) (s : State) : State := (((s.withMem (Memory.writeBytes s.mem (s.inst k).req.dst.base (drawBytes s.draws (openBytes (s.inst k))))).afterDraws
      (openBytes (s.inst k))).withInst k Inst.reset)

theorem hostReset_eq {k} {s : State} (h : Config.hasInstance k = true) : hostReset k s = .next (afterReset k s) := by
  simp [hostReset, h, afterReset]

theorem length_drawBytes (n) : ∀ d, (drawBytes d n).length = n := by induction n with
  | zero => intro d; rfl
  | succ n ih => intro d; simp [drawBytes, ih]

theorem getD_drawBytes (n) : ∀ d i, i < n → (drawBytes d n).getD i 0 = Config.freeByte (d + i) := by induction n with
  | zero => intro d i h; omega
  | succ n ih =>
    intro d i h
    cases i with
    | zero => simp [drawBytes]
    | succ i => rw [drawBytes, List.getD_cons_succ, ih _ _ (by omega)]; congr 1; omega

theorem openBytes_eq_zero {x : Inst} (h : x.busy = false ∨ ∀ w, decode x.req.cmd ≠ .ok (copyOf w)) : openBytes x = 0 := by
  unfold openBytes
  rcases h with h | h
  · simp [h]
  · split
    · rfl
    · split
      · next i hi =>
        rcases i.cases_family with ⟨w, rfl⟩ | ⟨w, rfl⟩ | rfl
        · simp
        · exact absurd hi (h w)
        · rfl
      · rfl

theorem openBytes_copy {x : Inst} {w} (hb : x.busy = true) (hd : decode x.req.cmd = .ok (copyOf w)) (hv : x.req.val.toNat < 2 ^ w.bits) : openBytes x = min x.req.dst.len (maxDigits w) := by
  simp [openBytes, hb, hd, hv]

/-! ### Steps -/

/-- Everything a step that answers a next state can do. -/
theorem step_cases {s t : State} (h : step s = .next t) :
   (∃ k u es', (s.inst k).busy = true ∧ (es' = s.script ∨ s.script = .run k :: es') ∧ transactionOutcome k (s.withScript es') = .next u ∧ t = u) ∨
   (∃ k r es, s.script = .issue k r :: es ∧ (s.inst k).busy = false ∧ Config.hasInstance k = true ∧ s.issueConflicts k r = false ∧ t = (s.withScript es).withInst k ((s.inst k).latched r)) ∨
   (∃ k es, s.script = .reset k :: es ∧ Config.hasInstance k = true ∧ hostReset k (s.withScript es) = .next t) ∨
   (∃ a bs es, s.script = .poke a bs :: es ∧ t = (s.withScript es).withMem (Memory.writeBytes s.mem a bs)) ∨
   (∃ k reg es, s.script = .readReg k reg :: es ∧ t = ((s.withScript es).recordFault k (.readBeforeResponse reg) (s.inst k).ci).withReadout .nothing) ∨
   (∃ es r, (s.script = [] ∨ ∃ e, s.script = e :: es ∧ (∀ k, e ≠ .reset k)) ∧ (t = (s.withScript es).withReadout r ∨ t = s.withScript es ∨ t = s)) := by
  rw [step_eq] at h
  rcases hs : s.script with _ | ⟨e, es⟩
  · rw [hs] at h
    dsimp only at h
    rcases hb : s.firstBusy with _ | k
    · rw [hb] at h; cases h
      exact .inr (.inr (.inr (.inr (.inr ⟨[], .nothing, .inl rfl, .inr (.inr rfl)⟩))))
    · rw [hb] at h
      refine .inl ⟨k, t, [], State.busy_of_firstBusy hb, .inl rfl, ?_, rfl⟩
      have : s.withScript [] = s := by cases s; simp at hs; subst hs; rfl
      rw [this]; exact h
  · rw [hs] at h
    cases e with
    | issue k r =>
      dsimp only at h
      split at h
      · next hb =>
        refine .inl ⟨k, t, _, hb, .inl rfl, ?_, rfl⟩
        have : s.withScript (.issue k r :: es) = s := by cases s; simp at hs; subst hs; rfl
        rw [this]; exact h
      · next hb =>
        unfold hostIssue at h
        split_ifs at h with h1 h2
        cases h
        exact .inr (.inl ⟨k, r, es, rfl, by simpa using hb, by simpa using h1, Bool.not_eq_true _ ▸ h2, rfl⟩)
    | run k =>
      dsimp only at h
      split at h
      · next hb => exact .inl ⟨k, t, es, hb, .inr rfl, h, rfl⟩
      · next hb => cases h; exact .inr (.inr (.inr (.inr (.inr ⟨es, .nothing, .inr ⟨_, rfl, by simp⟩, .inr (.inl rfl)⟩))))
    | readReg k reg =>
      dsimp only at h
      unfold hostReadReg at h
      split_ifs at h
      · cases h; exact .inr (.inr (.inr (.inr (.inl ⟨k, reg, es, rfl, rfl⟩))))
      · cases h; exact .inr (.inr (.inr (.inr (.inr ⟨es, _, .inr ⟨_, rfl, by simp⟩, .inl rfl⟩))))
    | poke a bs =>
      dsimp only at h
      unfold hostPoke at h
      split_ifs at h
      cases h; exact .inr (.inr (.inr (.inl ⟨a, bs, es, rfl, rfl⟩)))
    | peek b =>
      dsimp only at h
      unfold hostPeek at h
      split_ifs at h
      cases h; exact .inr (.inr (.inr (.inr (.inr ⟨es, _, .inr ⟨_, rfl, by simp⟩, .inl rfl⟩))))
    | reset k =>
      dsimp only at h
      have h' := h
      unfold hostReset at h
      split_ifs at h with h1
      exact .inr (.inr (.inl ⟨k, es, rfl, by simpa using h1, h'⟩))

theorem Slice.overlaps_of_mem (x y : Slice) (a) (h1 : x.base ≤ a) (h2 : a < x.base + x.len) (h3 : y.base ≤ a) (h4 : a < y.base + y.len) : x.overlaps y = true :=
  (Slice.overlaps_iff x y).2 ⟨a, ⟨h1, h2⟩, h3, h4⟩

/-- A run of n + 1 steps is a step and a run of n steps. -/
theorem core_run_succ (n : Nat) (s : State) : core.run (n+1) s = match step s with | .next t => core.run n t | .fault r => .fault r | .refused r => .refused r := by
  have e : core.step s = step s := rfl
  simp only [Host.Core.run.eq_def core (n+1) s, e]
  cases step s <;> rfl

end Sys2Proof.Machine
end

