-- ==== Sys2Proof/Tests/Slice0.lean ====
section
/-! SUPPORT. Tests: expected values are those of spec/95_test_vectors.md or worked out from the named rules. One step each. The
theorems test_witness_* show states that meet all the hypotheses of a statement together. -/

namespace Sys2Proof.Tests

open Sys2Proof.Machine

/-! ### Helpers -/

/-- The ASCII bytes of a text. -/
def ascii (s : String) : List Byte := s.toList.map (fun c => BitVec.ofNat 8 c.toNat)

/-- A request with SRC of `slen` bytes from address 0 on and DST of `dlen` bytes from address 64 on. -/
def req (cmd : BitVec 8) (val : BitVec 64) (slen dlen : Nat) : Request :=
  { cmd := cmd, val := val, src := { base := 0, len := slen }, dst := { base := 64, len := dlen } }

/-- Instance 0 has latched `r`, host memory holds `text` from address 0 on, and the transaction runs next. -/
def ready (r : Request) (text : List Byte) : State :=
  { State.reset with
    insts := [(0, Inst.reset.latched r)], mem := Memory.writeBytes [] 0 text, script := [.run 0] }

/-- A PARSE of a whole text, about to run. -/
def parsing (cmd : BitVec 8) (text : String) : State := ready (req cmd 0 (ascii text).length 0) (ascii text)

/-- A COPY of a value into `dlen` bytes, or a DIGIT, about to run. -/
def valued (cmd : BitVec 8) (val : BitVec 64) (dlen : Nat) : State := ready (req cmd val 0 dlen) []

/-- What one step gives. -/
def after {α : Type} (f : State → α) (s : State) : Option α :=
  match step s with
  | .next t => some (f t)
  | .fault _ => none
  | .refused _ => none

/-- STATUS, RVAL, ROK and RCNT of instance 0. -/
def response (s : State) : Nat × Nat × Bool × Nat :=
  let r := (s.inst 0).resp
  (r.status.toNat, r.rval.toNat, r.rok, r.rcnt.toNat)

/-- The bytes of host memory at addresses 64 and on. -/
def dstBytes (n : Nat) (s : State) : List Byte := Memory.readBytes s.mem 64 n

/-! ### Well-formedness: the assembler's checks, each with a line it refuses (R78) -/

theorem test_wf_commands : ∀ w, (parseOf w).wellFormed = true ∧ (copyOf w).wellFormed = true := by
  intro w; cases w <;> decide

theorem test_wf_copy_operand : (AsmLine.copy .w8 ⟨0, 0, 3⟩ 256).wellFormed = false ∧
    (AsmLine.copy .w8 ⟨0, 0, 3⟩ 255).wellFormed = true := by decide

theorem test_wf_copy_slice : (AsmLine.copy .w8 ⟨0, 4, 3⟩ 1).wellFormed = false := by decide

theorem test_wf_parse_slice : (AsmLine.parse .w8 (.slice ⟨0, 1, 0⟩)).wellFormed = false ∧
    (AsmLine.parse .w8 (.literal [])).wellFormed = true := by decide

theorem test_wf_digit : (AsmLine.digit 256).wellFormed = false ∧ (AsmLine.digit 255).wellFormed = true := by decide

theorem test_wf_raw_cmd : (AsmLine.raw 256 0 (.literal []) ⟨0, 0, 0⟩).wellFormed = false := by decide

theorem test_wf_raw_imm : (AsmLine.raw 255 (2 ^ 64) (.literal []) ⟨0, 0, 0⟩).wellFormed = false ∧
    (AsmLine.raw 255 (2 ^ 64 - 1) (.literal []) ⟨0, 0, 0⟩).wellFormed = true := by decide

theorem test_wf_raw_slices : (AsmLine.raw 0 0 (.slice ⟨0, 1, 0⟩) ⟨0, 0, 0⟩).wellFormed = false ∧
    (AsmLine.raw 0 0 (.literal []) ⟨0, 1, 0⟩).wellFormed = false := by decide

/-! ### Decoding: words written out as OP, RSV, WSEL (R64 to R68, and the table of 95 section 2.5) -/

theorem test_decode_parse : decode 0b00000000#8 = .ok .parseU8 ∧ decode 0b00000001#8 = .ok .parseU16 ∧
    decode 0b00000010#8 = .ok .parseU32 ∧ decode 0b00000011#8 = .ok .parseU64 := ⟨rfl, rfl, rfl, rfl⟩

theorem test_decode_copy : decode 0b01000000#8 = .ok .copyU8 ∧ decode 0b01000001#8 = .ok .copyU16 ∧
    decode 0b01000010#8 = .ok .copyU32 ∧ decode 0b01000011#8 = .ok .copyU64 := ⟨rfl, rfl, rfl, rfl⟩

theorem test_decode_digit : decode 0b10000000#8 = .ok .digit := rfl

theorem test_decode_illegal : decode 0x83#8 = .error .digitWithWidth ∧ decode 0xC0#8 = .error .reservedOp ∧
    decode 0x84#8 = .error .reservedBits ∧ decode 0x3F#8 = .error .reservedBits ∧ decode 0xFF#8 = .error .reservedBits :=
  ⟨rfl, rfl, rfl, rfl, rfl⟩

theorem test_encode : encode .parseU64 = 0x03#8 ∧ encode .copyU8 = 0x40#8 ∧ encode .digit = 0x80#8 := by decide

theorem test_table_word : decodeTableWord 8 0x42 = some .copyU32 ∧ decodeTableWord 8 0x81 = none := by decide

/-! ### The commands: vectors of 95 Parts 1 and 2, run through `step` -/

theorem test_parse_u8_max : after response (parsing 0x00 "255") = some (0, 255, true, 0) := by decide

theorem test_parse_u8_syntax_before_overflow : after response (parsing 0x00 "30a") = some (0, 0, false, 0) := by decide

theorem test_parse_u16_one_above : after response (parsing 0x01 "65536") = some (0, 65535, false, 0) := by decide

theorem test_parse_u16_leading_zero : after response (parsing 0x01 "06553") = some (0, 6553, true, 0) := by decide

theorem test_parse_u32_max : after response (parsing 0x02 "4294967295") = some (0, 4294967295, true, 0) := by decide

theorem test_parse_u32_too_long : after response (parsing 0x02 "04294967295") = some (0, 4294967295, false, 0) := by decide

theorem test_parse_u64_max :
    after response (parsing 0x03 "18446744073709551615") = some (0, 18446744073709551615, true, 0) := by decide

theorem test_parse_u64_wraps_nowhere :
    after response (parsing 0x03 "18446744073709551616") = some (0, 18446744073709551615, false, 0) := by decide

theorem test_copy_u8_truncates :
    after (fun t => (response t, dstBytes 3 t)) (valued 0x40 255 2) = some ((0, 0, true, 2), ascii "25" ++ [0]) := by decide

theorem test_copy_u8_wide : after (fun t => (response t, t.faults, t.mem)) (valued 0x40 256 3) =
    some ((2, 0, false, 0), [⟨0, .hw (.illegalOperand 256), 0⟩], []) := by decide

theorem test_copy_u16_inner_zeros :
    after (fun t => (response t, dstBytes 5 t)) (valued 0x41 1000 5) = some ((0, 0, true, 4), ascii "1000" ++ [0]) := by decide

theorem test_copy_u16_empty : after (fun t => (response t, t.mem)) (valued 0x41 65535 0) = some ((0, 0, true, 0), []) := by decide

theorem test_copy_u32_prefix :
    after (fun t => (response t, dstBytes 4 t)) (valued 0x42 4294967295 3) = some ((0, 0, true, 3), ascii "429" ++ [0]) := by
  decide

theorem test_copy_u32_wide : after response (valued 0x42 0x100000000 10) = some (2, 0, false, 0) := by decide

theorem test_copy_u64_full : after (fun t => (response t, dstBytes 20 t)) (valued 0x43 0xFFFFFFFFFFFFFFFF 20) =
    some ((0, 0, true, 20), ascii "18446744073709551615") := by decide

theorem test_copy_u64_zero :
    after (fun t => (response t, dstBytes 2 t)) (valued 0x43 0 2) = some ((0, 0, true, 1), [0x30, 0]) := by decide

theorem test_digit_nine : after response (valued 0x80 0x39 0) = some (0, 9, true, 0) := by decide

theorem test_digit_wide : after (fun t => (response t, t.faults)) (valued 0x80 0x130 0) =
    some ((2, 0, false, 0), [⟨0, .hw (.illegalOperand 0x130), 0⟩]) := by decide

/-! ### Steps: faults, the host's interactions, reset, several instances -/

/-- One host interaction next, after reset. -/
def hosting (e : Event) : State := { State.reset with script := [e] }

/-- Instance 1 has latched `r`. -/
def busyOne (r : Request) (e : Event) : State := { State.reset with insts := [(1, Inst.reset.latched r)], script := [e] }

/-- The command word 0x42 placed as the host's check places it runs at once, with its operands zero (notes/assumptions 23). -/
theorem test_with_fetch_word : after response (State.reset.withFetchWord 8 0x42) = some (0, 0, true, 0) := by decide

/-- R134, R137: an illegal command word, with its record; an operand that would be illegal too plays no part (R136). -/
theorem test_illegal_command : after (fun t => (response t, t.faults, (t.inst 0).ci, (t.inst 0).rvalid)) (valued 0x44 256 3) =
    some ((1, 0, false, 0), [⟨0, .hw (.illegalCommand 0x44), 0⟩], 1, true) := by decide

/-- R138, program P6: the read is recorded and gives no value. -/
theorem test_read_before_response : after (fun t => (t.faults, t.readout)) (hosting (.readReg 0 .rval)) =
    some ([⟨0, .readBeforeResponse .rval, 0⟩], .nothing) := by decide

theorem test_issue_latches : after (fun t => ((t.inst 0).busy, (t.inst 0).req, (t.inst 0).rvalid))
    (hosting (.issue 0 (req 0x40 7 0 3))) = some (true, req 0x40 7 0 3, false) := by decide

theorem test_overlap_refused : step (busyOne (req 0x40 7 0 3) (.issue 0 (req 0x41 7 0 1))) = .refused .overlappingBuffers := rfl

/-- R160: the last byte of DST may not be written while its COPY is in progress; the byte after it may. -/
theorem test_host_duty : step (busyOne (req 0x40 7 0 3) (.poke 66 [0xFF])) = .refused .bufferInUse ∧
    after (fun t => dstBytes 4 t) (busyOne (req 0x40 7 0 3) (.poke 67 [0xFF])) = some [0, 0, 0, 0xFF] :=
  ⟨rfl, by decide⟩

/-- R154: a reset during a COPY draws min(DLEN, maxDigits(W)) bytes. -/
theorem test_reset_draws : after (fun t => (t.draws, (t.inst 0).busy)) ((valued 0x40 7 5).withScript [.reset 0]) = some (3, false) := rfl

theorem test_reset_state : (State.reset.inst 3).busy = false ∧ State.reset.mem = [] ∧ step State.reset = .next State.reset :=
  ⟨rfl, rfl, rfl⟩

/-- Writing what an unlisted byte reads as removes the entry, so equal memories are equal data. -/
theorem test_memory_canonical : Memory.write (Memory.write [] 5 1) 5 0 = [] ∧ Memory.wf [(5, 0)] = false ∧
    Memory.wf [(5, 1), (4, 1)] = false ∧ Memory.wf [(4, 1), (5, 1)] = true := by decide

/-! ### The datapaths (95 section 2.4) and the assembler (R76 to R80) -/

theorem test_accumulator_holds_2_64 : (accStep .w64 1844674407370955161#68 0x36).toNat = 2 ^ 64 := by decide

theorem test_encoder_path : copyRef .w32 (List.replicate 10 0xFF) 10 4294967295 = ascii "4294967295" ∧
    copyRef .w8 (List.replicate 3 0xFF) 3 101 = ascii "101" := by decide

theorem test_read_digit : readLine "digit '9' ; a comment".toList = .command (.digit 0x39) := by decide

theorem test_read_literal : readLine "PARSE.U8 \"a\\x00\\\"\"".toList = .command (.parse .w8 (.literal [0x61, 0x00, 0x22])) := by
  decide

/-- With the first of two literal lines in progress, the second line's literal is written and not refused (R77). -/
theorem test_second_literal : after (fun t => t.byte 2) ((parsing 0x00 "42").withScript [.poke 2 (ascii "7")]) = some 0x37 := by
  decide

theorem test_read_refused : readLine "COPY.U8 B0[0:3], 256".toList = .refused ∧ readLine "; only a comment".toList = .blank := by
  decide

/-! ### Witnesses: states and operands that meet the hypotheses of the statements of the same name -/

theorem test_witness_NineWordsDecode : (0x04 : BitVec 8) ∉ [0x00#8, 0x01#8, 0x02#8, 0x03#8, 0x40#8, 0x41#8, 0x42#8, 0x43#8, 0x80#8] := by
  decide

theorem test_witness_DecodeAndEncodeAgree : Instr.digit.wellFormed = true := rfl

theorem test_witness_LutHoldsTwoDigits : 99 ≤ 99 ∧ lutAt 198 = 0x39 ∧ lutAt 199 = 0x39 := by decide

theorem test_witness_WidthConstants : cutoff .w8 ≤ 26 ∧ 10 * (cutoff .w8 - 1) + 5 ≤ maxValue .w8 ∧
    ¬ 10 * (cutoff .w8 - 1) + 6 ≤ maxValue .w8 := by decide

/-- VAL = 255 is the largest operand of DIGIT, and PARSE has no condition. -/
theorem test_witness_DecoderEndsDone : (valued 0x80 255 0).active.req.val.toNat < 256 ∧ (.parseU8, .w8) ∈ parseCommands := by decide

/-- One text a side of the equivalence. -/
theorem test_witness_ParseSucceedsExactly : (.parseU8, .w8) ∈ parseCommands ∧
    after response (parsing 0x00 "255") = some (0, 255, true, 0) ∧ after response (parsing 0x00 "256") = some (0, 255, false, 0) := by
  decide

theorem test_witness_ParseRejectsEmpty : (.parseU8, .w8) ∈ parseCommands ∧ (parsing 0x00 "").active.req.src.len = 0 := by decide

theorem test_witness_ParseLengthOverflows : (.parseU8, .w8) ∈ parseCommands ∧
    maxDigits .w8 < (parsing 0x00 "0255").active.req.src.len ∧ maxDigits .w8 < (ascii "0255").length := by decide

/-- The non-digit is the last byte of an input of maxDigits(W) bytes. -/
theorem test_witness_ParseSyntaxErrors : (.parseU8, .w8) ∈ parseCommands ∧
    (parsing 0x00 "30a").active.req.src.len ≤ maxDigits .w8 ∧ 2 < (parsing 0x00 "30a").active.req.src.len ∧
    ¬ (0x30 ≤ ((parsing 0x00 "30a").byte ((parsing 0x00 "30a").active.req.src.base + 2)).toNat ∧
      ((parsing 0x00 "30a").byte ((parsing 0x00 "30a").active.req.src.base + 2)).toNat ≤ 0x39) := by decide

/-- "256" meets the first clause's conditions, "99" the second's. -/
theorem test_witness_ParseMagnitudeOverflows : (.parseU8, .w8) ∈ parseCommands ∧
    (∀ n, n < (parsing 0x00 "256").active.req.src.len →
      isDigit ((parsing 0x00 "256").byte ((parsing 0x00 "256").active.req.src.base + n)) = true) ∧
    (parsing 0x00 "256").active.req.src.len = maxDigits .w8 ∧ maxValue .w8 < decVal (srcOperand (parsing 0x00 "256")) ∧
    (∀ n, n < (parsing 0x00 "99").active.req.src.len →
      isDigit ((parsing 0x00 "99").byte ((parsing 0x00 "99").active.req.src.base + n)) = true) ∧
    1 ≤ (parsing 0x00 "99").active.req.src.len ∧ (parsing 0x00 "99").active.req.src.len < maxDigits .w8 := by decide

/-- A syntax error, an overflow and a success. -/
theorem test_witness_ParseValueByFlag : (.parseU8, .w8) ∈ parseCommands ∧
    after response (parsing 0x00 "2a6") = some (0, 0, false, 0) ∧ after response (parsing 0x00 "300") = some (0, 255, false, 0) ∧
    after response (parsing 0x00 "0") = some (0, 0, true, 0) := by decide

theorem test_witness_HostTellsOutcomes : (.parseU8, .w8) ∈ parseCommands ∧
    after (fun t => hostVerdict (t.inst 0).resp) (parsing 0x00 "2a6") = some .syntaxError ∧
    after (fun t => hostVerdict (t.inst 0).resp) (parsing 0x00 "0") = some (.value 0) := by decide

/-- "007" is "7" with two zeros, three zeros are as many as width 8 takes, and "0042" is one byte too long. -/
theorem test_witness_ParseIgnoresLeadingZeros : ascii "7" ≠ [] ∧ (∀ b ∈ ascii "7", isDigit b = true) ∧
    2 + (ascii "7").length ≤ maxDigits .w8 ∧ 3 ≤ maxDigits .w8 ∧ maxDigits .w8 < 2 + (ascii "42").length := by decide

theorem test_witness_ParseReadsCanonicalText : (.parseU8, .w8) ∈ parseCommands ∧ 255 ≤ maxValue .w8 ∧
    srcOperand (parsing 0x00 "255") = canon 255 := by decide

/-- The last legal operand and the first illegal one. -/
theorem test_witness_DigitDecodesOneByte : (valued 0x80 255 0).active.req.val.toNat < 256 ∧
    256 ≤ (valued 0x80 256 0).active.req.val.toNat := by decide

theorem test_witness_ParseOneByteIsDigit : (.parseU8, .w8) ∈ parseCommands ∧ (parsing 0x00 "7").active.req.src.len = 1 ∧
    (valued 0x80 0x37 0).active.req.val = ((parsing 0x00 "7").byte (parsing 0x00 "7").active.req.src.base).setWidth 64 := by decide

/-- The largest legal operand, a byte of DST that is written, and one that is not. -/
theorem test_witness_CopyWritesLeadingDigits : (.copyU8, .w8) ∈ copyCommands ∧
    (valued 0x40 255 2).active.req.val.toNat < 2 ^ Width.w8.bits ∧
    1 < min (valued 0x40 255 2).active.req.dst.len (nd (valued 0x40 255 2).active.req.val.toNat) ∧
    ¬ 66 < 64 + min (valued 0x40 255 2).active.req.dst.len (nd (valued 0x40 255 2).active.req.val.toNat) := by decide

theorem test_witness_CopyRefusesWideOperand : (.copyU8, .w8) ∈ copyCommands ∧
    2 ^ Width.w8.bits ≤ (valued 0x40 256 2).active.req.val.toNat := by decide

theorem test_witness_CopyIntoEmptyBuffer : (.copyU8, .w8) ∈ copyCommands ∧ (valued 0x40 255 0).active.req.dst.len = 0 := by decide

/-- A count of 0, and a count of maxDigits(W) in a larger buffer. -/
theorem test_witness_CopyCountInRange : (.copyU8, .w8) ∈ copyCommands ∧
    (valued 0x40 255 0).active.req.val.toNat < 2 ^ Width.w8.bits ∧
    after response (valued 0x40 255 0) = some (0, 0, true, 0) ∧
    (valued 0x40 255 4).active.req.dst.len ≠ 0 ∧ after response (valued 0x40 255 4) = some (0, 0, true, 3) := by decide

/-- A truncated text, and the smallest buffer that never truncates. -/
theorem test_witness_TruncationShowsInCount : (.copyU8, .w8) ∈ copyCommands ∧
    (valued 0x40 255 2).active.req.val.toNat < 2 ^ Width.w8.bits ∧
    (valued 0x40 255 2).active.req.dst.len < nd (valued 0x40 255 2).active.req.val.toNat ∧
    maxDigits .w8 ≤ (valued 0x40 255 3).active.req.dst.len := by decide

theorem test_witness_EncoderDatapathRefines : (List.replicate 3 (0xFF : Byte)).length = maxDigits .w8 ∧ 255 < 2 ^ Width.w8.bits := by
  decide

theorem test_witness_CopyIsIdempotent : (.copyU8, .w8) ∈ copyCommands ∧ (.copyU64, .w64) ∈ copyCommands := by decide

theorem test_witness_EncodeThenDecode : (.copyU8, .w8) ∈ copyCommands ∧ (.parseU8, .w8) ∈ parseCommands ∧
    (valued 0x40 255 3).active.req.val.toNat < 2 ^ Width.w8.bits ∧ maxDigits .w8 ≤ (valued 0x40 255 3).active.req.dst.len ∧
    after (fun t => decide ({ base := 64, len := t.active.resp.rcnt.toNat } = (Slice.mk 64 3))) (valued 0x40 255 3) = some true := by
  decide

/-- The work at the largest inputs is that of R166's table: 3 reads and 3 multiply-adds at width 8, and none for a longer text. -/
theorem test_witness_DatapathWorkBounded : 100 < 2 ^ Width.w8.bits ∧ 99 < 100 ∧ maxDigits .w8 < (ascii "2555").length ∧
    (parseRefRun .w8 (ascii "255")).2.reads = 3 ∧ (parseRefRun .w8 (ascii "255")).2.multiplyAdds = 3 ∧
    (parseRefRun .w8 (ascii "2555")).2.reads = 0 := by decide

/-- The same text at another place of memory, on another instance, with another VAL; and two COPY requests that differ in SRC. -/
theorem test_witness_ResultDependsOnOperandsOnly :
    srcOperand (parsing 0x00 "42") = srcOperand
      { (ready { req 0x00 9 0 5 with src := { base := 7, len := 2 } } []) with mem := Memory.writeBytes [] 7 (ascii "42") } ∧
    (valued 0x40 7 3).active.req.val = (ready (req 0x40 7 5 3) []).active.req.val ∧
    (valued 0x40 7 3).active.req.dst.len = (ready (req 0x40 7 5 3) []).active.req.dst.len := by decide

theorem test_witness_LongInputBytesUnread : (.parseU8, .w8) ∈ parseCommands ∧ (parsing 0x00 "").active.req.src.len = 0 ∧
    maxDigits .w8 < (parsing 0x00 "0255").active.req.src.len := by decide

/-- No other instance of `ready` has a transaction in progress. -/
theorem ready_others_idle (r : Request) (text : List Byte) (j : Nat) (h : j ≠ 0) : ((ready r text).inst j) = Inst.reset := by
  obtain ⟨j, rfl⟩ := Nat.exists_eq_succ_of_ne_zero h
  rfl

/-- The three ways a turn comes: a `run` event, a request that waits, and no event left. -/
theorem ready_turn (r : Request) (text : List Byte) :
    (ready r text).Turn 0 ((ready r text).withScript []) ∧
    ((ready r text).withScript [.issue 0 Request.reset]).Turn 0 ((ready r text).withScript [.issue 0 Request.reset]) ∧
    ((ready r text).withScript []).Turn 0 ((ready r text).withScript []) :=
  ⟨⟨rfl, .inl ⟨[], rfl, rfl⟩⟩, ⟨rfl, .inr (.inl ⟨Request.reset, [], rfl, rfl⟩)⟩, ⟨rfl, .inr (.inr ⟨rfl, rfl, rfl⟩)⟩⟩

theorem test_witness_StepRunsDecodedCommand : (valued 0x40 7 3).Turn 0 ((valued 0x40 7 3).withScript []) ∧
    ((valued 0x40 7 3).withScript [.issue 0 Request.reset]).Turn 0 ((valued 0x40 7 3).withScript [.issue 0 Request.reset]) ∧
    ((valued 0x40 7 3).withScript []).Turn 0 ((valued 0x40 7 3).withScript []) ∧
    decode ((valued 0x40 7 3).inst 0).req.cmd = .ok .copyU8 ∧ Instr.copyU8.wellFormed = true :=
  ⟨(ready_turn _ _).1, (ready_turn _ _).2.1, (ready_turn _ _).2.2, rfl, rfl⟩

/-- One word for each of the three ways of being illegal, and one of them in each way its turn comes. -/
theorem test_witness_IllegalCommandFaults : (valued 0x04 0 0).Turn 0 ((valued 0x04 0 0).withScript []) ∧
    ((valued 0x04 0 0).withScript [.issue 0 Request.reset]).Turn 0 ((valued 0x04 0 0).withScript [.issue 0 Request.reset]) ∧
    ((valued 0x04 0 0).withScript []).Turn 0 ((valued 0x04 0 0).withScript []) ∧
    ((valued 0x04 0 0).inst 0).req.cmd.extractLsb' 2 4 ≠ 0 ∧
    ((valued 0xC0 0 0).inst 0).req.cmd.extractLsb' 6 2 = 0b11#2 ∧
    ((valued 0x83 0 0).inst 0).req.cmd.extractLsb' 6 2 = 0b10#2 ∧ ((valued 0x83 0 0).inst 0).req.cmd.extractLsb' 0 2 ≠ 0 :=
  ⟨(ready_turn _ _).1, (ready_turn _ _).2.1, (ready_turn _ _).2.2, by decide, by decide, by decide, by decide⟩

/-- R136's two examples, and a legal command with an operand out of range. -/
theorem test_witness_IllegalCommandComesFirst : (valued 0x44 256 0).Turn 0 ((valued 0x44 256 0).withScript []) ∧
    decode ((valued 0x44 256 0).inst 0).req.cmd = .error .reservedBits ∧
    decode ((valued 0x81 256 0).inst 0).req.cmd = .error .digitWithWidth ∧
    decode ((valued 0x40 256 0).inst 0).req.cmd = .ok .copyU8 := ⟨(ready_turn _ _).1, rfl, rfl, rfl⟩

/-- The three ways of ending, and a fault taken when a request waits and when no event is left. -/
theorem test_witness_TransactionEndsThreeWays : (valued 0x40 7 3).Turn 0 ((valued 0x40 7 3).withScript []) ∧
    after response (valued 0x40 7 3) = some (0, 0, true, 1) ∧ after response (valued 0x04 7 3) = some (1, 0, false, 0) ∧
    after response (valued 0x40 256 3) = some (2, 0, false, 0) ∧
    after response ((valued 0x04 7 3).withScript [.issue 0 Request.reset]) = some (1, 0, false, 0) ∧
    after response ((valued 0x04 7 3).withScript []) = some (1, 0, false, 0) :=
  ⟨(ready_turn _ _).1, by decide, by decide, by decide, by decide, by decide⟩

/-- A step that ends a transaction, one that ends none, and a reset. -/
theorem test_witness_CommandIndexCounts : after (fun t => (t.inst 0).ci) (valued 0x40 7 3) = some 1 ∧
    (∀ es, (valued 0x40 7 3).script ≠ .reset 0 :: es) ∧ after (fun t => (t.inst 0).ci) (hosting (.poke 0 [])) = some 0 ∧
    after (fun t => (t.inst 0).ci) ((valued 0x40 7 3).withScript [.reset 0]) = some 0 :=
  ⟨by decide, (by intro es h; cases h), by decide, rfl⟩

theorem test_witness_FaultListOnlyGrows : after (fun t => t.faults.length) (valued 0x04 7 3) = some 1 ∧
    after (fun t => t.faults.length) (valued 0x40 7 3) = some 0 := by decide

/-- A byte a COPY writes, and one the host writes. -/
theorem test_witness_WhoWritesMemory : after (fun t => t.byte 64) (valued 0x40 7 3) = some 0x37 ∧ (valued 0x40 7 3).byte 64 = 0 ∧
    after (fun t => t.byte 5) (hosting (.poke 5 [1])) = some 1 ∧ (hosting (.poke 5 [1])).byte 5 = 0 := by decide

theorem test_witness_IssueLatchesRequest : (busyOne (req 0x40 7 0 3) (.issue 0 (req 0x00 0 3 0))).script =
      [.issue 0 (req 0x00 0 3 0)] ∧ Config.hasInstance 0 = true ∧
    ((busyOne (req 0x40 7 0 3) (.issue 0 (req 0x00 0 3 0))).inst 0).busy = false ∧
    ∀ j, j ≠ 0 → ((busyOne (req 0x40 7 0 3) (.issue 0 (req 0x00 0 3 0))).inst j).busy = true →
      (req 0x00 0 3 0).conflicts ((busyOne (req 0x40 7 0 3) (.issue 0 (req 0x00 0 3 0))).inst j).req = false := by
  refine ⟨rfl, rfl, rfl, ?_⟩
  intro j h hb
  match j, h, hb with
  | 1, _, _ => decide
  | j + 2, _, hb => cases hb

/-- A COPY against a COPY, a COPY against a PARSE, a PARSE against a COPY, and two PARSE commands: the last byte is shared. -/
theorem test_witness_OverlappingLaunchRefused :
    Config.hasInstance 0 = true ∧
    ((busyOne (req 0x40 7 0 3) (.issue 0 (req 0x40 7 0 3))).inst 0).busy = false ∧
    ((busyOne (req 0x40 7 0 3) (.issue 0 (req 0x40 7 0 3))).inst 1).busy = true ∧
    decode (req 0x40 7 0 3).cmd = .ok .copyU8 ∧ Instr.copyU8.writesDst = true ∧
    ((req 0x40 7 0 3).dst.base ≤ 66 ∧ 66 < (req 0x40 7 0 3).dst.base + (req 0x40 7 0 3).dst.len) ∧
    decode (req 0x00 0 67 0).cmd = .ok .parseU8 ∧ Instr.parseU8.readsSrc = true ∧
    ((req 0x00 0 67 0).src.base ≤ 66 ∧ 66 < (req 0x00 0 67 0).src.base + (req 0x00 0 67 0).src.len) ∧
    (∀ m, m ≠ 0 → m ≠ 1 → ((busyOne (req 0x00 0 67 0) (.issue 0 (req 0x00 0 67 0))).inst m).busy = false) := by
  refine ⟨rfl, rfl, rfl, rfl, rfl, by decide, rfl, rfl, by decide, ?_⟩
  intro m h0 h1
  match m, h0, h1 with
  | m + 2, _, _ => rfl

theorem test_witness_BusyInstanceEndsFirst : ((valued 0x40 7 3).withScript [.issue 0 Request.reset]).script =
      [.issue 0 Request.reset] ∧ (((valued 0x40 7 3).withScript [.issue 0 Request.reset]).inst 0).busy = true := by decide

/-- A transaction in progress and no event; and no transaction and no event. -/
theorem test_witness_TransactionsEndUnaided : ((valued 0x40 7 3).withScript []).script = [] ∧
    (∃ k, (((valued 0x40 7 3).withScript []).inst k).busy = true) ∧ State.reset.script = [] ∧
    ∀ k, (State.reset.inst k).busy = false := ⟨rfl, ⟨0, rfl⟩, rfl, fun _ => rfl⟩

theorem test_witness_ReadBeforeResponseRecorded : (hosting (.readReg 0 .rcnt)).script = [.readReg 0 .rcnt] ∧
    Config.hasInstance 0 = true ∧ ((hosting (.readReg 0 .rcnt)).inst 0).rvalid = false := by decide

/-- Instance 0 has answered with the given STATUS code. -/
def answered (status : BitVec 2) (e : Event) : State :=
  { State.reset with
    insts := [(0, Inst.reset.ended { status := status, rval := 5, rok := true, rcnt := 0 })], script := [e] }

/-- The reserved code, which no run reaches, and a code that is written. -/
theorem test_witness_ReadAfterResponse : Config.hasInstance 0 = true ∧ ((answered 0b11 (.readReg 0 .status)).inst 0).rvalid = true ∧
    ((answered 0b11 (.readReg 0 .status)).inst 0).resp.status = 0b11#2 ∧
    after (fun t => t.readout) (answered 0b10 (.readReg 0 .status)) = some (.reg 2) ∧
    after (fun t => t.readout) (answered 0b00 (.readReg 0 .rval)) = some (.reg 5) := by decide

/-- The last byte of a DST in use, and a write of nothing at its first byte. -/
theorem test_witness_HostWriteKeepsDuty : ((busyOne (req 0x40 7 0 3) (.poke 66 [1])).inst 1).busy = true ∧
    (66 ≤ 66 ∧ 66 < 66 + 1) ∧
    ((busyOne (req 0x40 7 0 3) (.poke 66 [1])).inst 1).req.usedDst.base ≤ 66 ∧
    66 < ((busyOne (req 0x40 7 0 3) (.poke 66 [1])).inst 1).req.usedDst.base +
      ((busyOne (req 0x40 7 0 3) (.poke 66 [1])).inst 1).req.usedDst.len ∧
    after (fun t => t.mem) (busyOne (req 0x40 7 0 3) (.poke 64 [])) = some [] := by decide

/-- The last byte of a DST in use, and the byte after it. -/
theorem test_witness_HostReadKeepsDuty : ((busyOne (req 0x40 7 0 3) (.peek ⟨66, 1⟩)).inst 1).busy = true ∧
    ((busyOne (req 0x40 7 0 3) (.peek ⟨66, 1⟩)).inst 1).req.usedDst.base ≤ 66 ∧
    66 < ((busyOne (req 0x40 7 0 3) (.peek ⟨66, 1⟩)).inst 1).req.usedDst.base +
      ((busyOne (req 0x40 7 0 3) (.peek ⟨66, 1⟩)).inst 1).req.usedDst.len ∧
    after (fun t => t.readout) (busyOne (req 0x40 7 0 3) (.peek ⟨67, 2⟩)) = some (.bytes [0, 0]) := by decide

/-- A reset of an idle instance. -/
theorem test_witness_ResetOneInstance : (hosting (.reset 0)).script = [.reset 0] ∧ Config.hasInstance 0 = true ∧
    ((hosting (.reset 0)).inst 0).busy = false := by decide

theorem test_witness_ResetDuringCopy : ((valued 0x40 255 4).withScript [.reset 0]).script = [.reset 0] ∧
    Config.hasInstance 0 = true ∧ (((valued 0x40 255 4).withScript [.reset 0]).inst 0).busy = true ∧
    decode (((valued 0x40 255 4).withScript [.reset 0]).inst 0).req.cmd = .ok .copyU8 ∧ (.copyU8, .w8) ∈ copyCommands ∧
    (((valued 0x40 255 4).withScript [.reset 0]).inst 0).req.val.toNat < 2 ^ Width.w8.bits :=
  ⟨rfl, rfl, rfl, rfl, by decide, by decide⟩

/-- Two COPY commands whose DST buffers touch but do not overlap. -/
theorem test_witness_InstancesCommute :
    let s := { State.reset with insts := [(0, Inst.reset.latched (req 0x40 7 0 3)),
      (1, Inst.reset.latched { req 0x40 9 0 0 with dst := { base := 67, len := 3 } })] }
    (0 : Nat) ≠ 1 ∧ (s.inst 0).busy = true ∧ (s.inst 1).busy = true ∧ (s.inst 0).req.conflicts (s.inst 1).req = false := by decide

/-- A state with a transaction in progress that meets the invariant, and from which a step answers a next state. -/
theorem test_witness_StepKeepsInvariant : (valued 0x40 7 3).Inv ∧ ∃ t, step (valued 0x40 7 3) = .next t := by
  have other : ∀ k, k ≠ 0 → (valued 0x40 7 3).inst k = Inst.reset := fun k h => ready_others_idle _ _ k h
  have legal : ∀ x : Inst, x.resp = Response.reset → x.rvalid = false → x.ci = 0 → x.Legal := by
    intro x h1 h2 h3
    simp [Inst.Legal, h1, h2, h3, Response.reset, statusDone]
  refine ⟨⟨rfl, by decide, ?_, ?_, ?_⟩, _, rfl⟩
  · intro k
    by_cases h : k = 0
    · subst h; exact legal _ rfl rfl rfl
    · rw [other k h]; exact legal _ rfl rfl rfl
  · intro k h
    refine other k ?_
    rintro rfl
    simp [Config.hasInstance] at h
  · intro j k hjk hj hk
    by_cases h : j = 0
    · have : k ≠ 0 := fun h2 => hjk (h.trans h2.symm)
      rw [other k this] at hk; cases hk
    · rw [other j h] at hj; cases hj

/-- A refused line, an accepted one with the largest operand, and a RAW line with an illegal word. -/
theorem test_witness_AssemblerEmitsOneCommand : (AsmLine.copy .w8 ⟨0, 0, 3⟩ 256).wellFormed = false ∧
    (AsmLine.copy .w8 ⟨0, 0, 3⟩ 255).wellFormed = true ∧ (AsmLine.raw 0xFF 300 (.literal [1]) ⟨0, 0, 3⟩).wellFormed = true := by
  decide

/-- Two lines with literals: the second literal lies after the first. -/
theorem test_witness_AssemblerKeepsLiteralsApart : (assembleProgram (fun _ => 64) 0 0 "PARSE.U8 \"42\"\nPARSE.U8 \"7\"".toList) =
    some [.poke 0 (ascii "42"),
      .issue 0 { cmd := 0x00, val := 0, src := { base := 0, len := 2 }, dst := Slice.empty },
      .poke 2 (ascii "7"),
      .issue 0 { cmd := 0x00, val := 0, src := { base := 2, len := 1 }, dst := Slice.empty }] := by decide

end Sys2Proof.Tests
end

section
/-! SUPPORT. The state family: the two-digit table, and what a step does to the registers of one instance (spec 10_state.md R23,
R40). -/

namespace Sys2Proof.Machine

/-! ### The two-digit table -/

theorem length_lutLine (t : BitVec 8) : (lutLine t).length = 20 := rfl

theorem length_lut : lut.length = 200 := by simp [lut, length_lutLine]

/-- Each of the ten lines of R24's listing is a literal, so its ten pairs are compared one by one (R23). -/
theorem lutAt_line {t : Nat} (ht : t < 10) :
    ∀ o, o < 10 → lutAt (2 * (10 * t + o)) = digitByte t ∧ lutAt (2 * (10 * t + o) + 1) = digitByte o := by
  interval_cases t <;> decide

/-- The pair of `v` stands in the line of its tens digit. -/
theorem lutAt_pair {v : Nat} (hv : v ≤ 99) :
    lutAt (2 * v) = digitByte (v / 10) ∧ lutAt (2 * v + 1) = digitByte (v % 10) := by
  have h := lutAt_line (t := v / 10) (by omega) (v % 10) (by omega)
  rwa [Nat.div_add_mod] at h

/-- Settles O4: the table's length and its pairs. -/
theorem lutHoldsTwoDigits : Obligations.LutHoldsTwoDigits :=
  ⟨length_lut, fun _ => lutAt_pair⟩

/-! ### The registers of one instance, over one step -/

/-- The transaction of instance `k` ends in it and changes no other instance (R57, R129). -/
theorem transactionOutcome_inst {k : Nat} {s t : State} (h : transactionOutcome k s = .next t) (j : Nat) :
    ∃ r, t.inst j = if j = k then (s.inst k).ended r else s.inst j := by
  obtain ⟨u, hu, _, ⟨v, ok, c, bs, rfl, _⟩ | rfl | rfl⟩ := transactionOutcome_cases k s
  all_goals obtain rfl := Host.Outcome.next.inj (hu.symm.trans h)
  · exact ⟨_, State.endTransaction_inst _ _ j⟩
  · exact ⟨_, State.takeFault_inst _ _ j⟩
  · exact ⟨_, State.takeFault_inst _ _ j⟩

/-- A reset event leaves the named instance in the reset state and changes no other instance (R152, R153). -/
theorem hostReset_inst {k : Nat} {s t : State} (h : hostReset k s = .next t) (j : Nat) :
    t.inst j = if j = k then Inst.reset else s.inst j := by
  cases hk : Config.hasInstance k
  · simp [hostReset, hk] at h
  · obtain rfl := Host.Outcome.next.inj ((hostReset_eq hk).symm.trans h)
    simp [afterReset]

theorem step_reset {s : State} {k : Nat} {es : List Event} (hs : s.script = .reset k :: es) :
    step s = hostReset k (s.withScript es) := by
  rw [step_eq, hs]

/-- Everything a step can do to the registers of instance `j`: reset them, end the transaction in progress there, latch a request
when idle, or leave them as they are. -/
theorem step_inst_cases {s t : State} (h : step s = .next t) (j : Nat) :
    (∃ es, s.script = .reset j :: es ∧ t.inst j = Inst.reset) ∨
    ((s.inst j).busy = true ∧ ∃ r, t.inst j = (s.inst j).ended r) ∨
    ((s.inst j).busy = false ∧ ∃ r, t.inst j = (s.inst j).latched r) ∨
    t.inst j = s.inst j := by
  obtain ⟨k, u, es, hb, _, hu, rfl⟩ | ⟨k, r, es, _, hb, _, _, rfl⟩ | ⟨k, es, hs, _, hr⟩ | ⟨a, bs, es, _, rfl⟩ |
    ⟨k, reg, es, _, rfl⟩ | ⟨es, r, _, rfl | rfl | rfl⟩ := step_cases h
  case inl =>
    obtain ⟨r, hr⟩ := transactionOutcome_inst hu j
    by_cases hj : j = k
    · subst hj; exact .inr (.inl ⟨hb, r, by simpa using hr⟩)
    · exact .inr (.inr (.inr (by simpa [hj] using hr)))
  case inr.inl =>
    by_cases hj : j = k
    · subst hj; exact .inr (.inr (.inl ⟨hb, r, by simp⟩))
    · exact .inr (.inr (.inr (by simp [hj])))
  case inr.inr.inl =>
    have hi := hostReset_inst hr j
    by_cases hj : j = k
    · subst hj; exact .inl ⟨es, hs, by simpa using hi⟩
    · exact .inr (.inr (.inr (by simpa [hj] using hi)))
  all_goals exact .inr (.inr (.inr rfl))

/-- Apart from a reset of the instance, only the end of its transaction changes CI (R40). -/
theorem step_ci {s t : State} {k : Nat} (h : step s = .next t) (hr : ∀ es, s.script ≠ .reset k :: es) :
    (t.inst k).ci = if (s.inst k).busy = true ∧ (t.inst k).busy = false then (s.inst k).ci + 1 else (s.inst k).ci := by
  obtain ⟨es, hs, _⟩ | ⟨hb, r, ht⟩ | ⟨hb, r, ht⟩ | ht := step_inst_cases h k
  · exact absurd hs (hr es)
  · simp [ht, hb]
  · simp [ht, hb]
  · simp [ht]

/-- A reset event of the instance sets CI to 0 (R40, R153). -/
theorem step_reset_ci {s t : State} {k : Nat} {es : List Event} (hs : s.script = .reset k :: es) (h : step s = .next t) :
    (t.inst k).ci = 0 := by
  have hi := hostReset_inst (step_reset hs ▸ h) k
  simp [hi]

/-- Settles O36: CI at reset, after a reset event, and over every other step, from what a step can do to one instance. -/
theorem commandIndexCounts : Obligations.CommandIndexCounts :=
  ⟨fun k => by rw [State.reset_inst, Inst.reset_ci], fun _ _ _ _ hs h => step_reset_ci hs h, fun _ _ _ h hr => step_ci h hr⟩

end Sys2Proof.Machine
end

section
/-! SUPPORT. The encoding family: the command word as its three fields, and what a command's response and its DST bytes are, in
terms of the request fields it reads (spec 30_encoding.md R64 to R74). -/

namespace Sys2Proof

/-! ### The command word as its fields -/

/-- The reserved bits, cut out by shift and mask, are the field RSV (R65). -/
theorem toNat_shift_and_mask (cmd : BitVec 8) : ((cmd >>> 2) &&& 0x0F#8).toNat = (rsvField cmd).toNat := by
  simpa [rsvField, BitVec.extractLsb'_toNat] using Nat.and_two_pow_sub_one_eq_mod (cmd.toNat >>> 2) 4

theorem shift_and_mask_eq_zero_iff (cmd : BitVec 8) : (cmd >>> 2) &&& 0x0F#8 = 0 ↔ rsvField cmd = 0b0000#4 := by
  rw [← BitVec.toNat_inj, ← BitVec.toNat_inj, toNat_shift_and_mask]
  rfl

/-- OP, RSV and WSEL are the whole word, so a word with RSV zero is the word of its OP and its WSEL (R64). -/
theorem eq_cmdWord_of_rsvField {cmd : BitVec 8} (h : rsvField cmd = 0b0000#4) :
    cmd = cmdWord (opField cmd) (wselField cmd) := by
  rw [cmdWord, ← h, opField, rsvField, wselField, BitVec.extractLsb'_append_extractLsb'_eq_extractLsb' (show 6 = 2 + 4 from rfl),
    BitVec.extractLsb'_append_extractLsb'_eq_extractLsb' (show 2 = 0 + 2 from rfl), BitVec.extractLsb'_eq_self]

/-! ### Which words the decoder answers how -/

/-- RSV decides first, whatever OP and WSEL hold (R65, R69). -/
theorem decode_of_rsvField_ne {cmd : BitVec 8} (h : rsvField cmd ≠ 0b0000#4) : decode cmd = .error .reservedBits := if_pos h

/-- The answers that are not RSV's: they are settled by the sixteen words with RSV zero. -/
theorem decode_iff_mem {Q : Except IllegalWord Instr → Prop} {words : List (BitVec 8)} (hbits : ¬ Q (.error .reservedBits))
    (hrsv : ∀ c ∈ words, rsvField c = 0b0000#4)
    (hfields : ∀ op wsel, Q (decode (cmdWord op wsel)) ↔ cmdWord op wsel ∈ words) (cmd : BitVec 8) :
    Q (decode cmd) ↔ cmd ∈ words := by
  by_cases h : rsvField cmd = 0b0000#4
  · rw [eq_cmdWord_of_rsvField h]
    exact hfields _ _
  · rw [decode_of_rsvField_ne h]
    exact iff_of_false hbits fun hmem => h (hrsv cmd hmem)

theorem decode_eq_reservedBits_iff (cmd : BitVec 8) : decode cmd = .error .reservedBits ↔ rsvField cmd ≠ 0b0000#4 := by
  have hzero : ∀ op wsel, decode (cmdWord op wsel) ≠ .error .reservedBits := by decide
  refine ⟨fun hd hr => ?_, decode_of_rsvField_ne⟩
  rw [eq_cmdWord_of_rsvField hr] at hd
  exact hzero _ _ hd

theorem decode_eq_reservedOp_iff (cmd : BitVec 8) :
    decode cmd = .error .reservedOp ↔ cmd ∈ [0xC0#8, 0xC1#8, 0xC2#8, 0xC3#8] :=
  decode_iff_mem (Q := (· = .error .reservedOp)) (by decide) (by decide) (by decide) cmd

theorem decode_eq_digitWithWidth_iff (cmd : BitVec 8) :
    decode cmd = .error .digitWithWidth ↔ cmd ∈ [0x81#8, 0x82#8, 0x83#8] :=
  decode_iff_mem (Q := (· = .error .digitWithWidth)) (by decide) (by decide) (by decide) cmd

/-- The decoder accepts exactly the nine words (R68). -/
theorem decode_ok_iff (cmd : BitVec 8) : (∃ i, decode cmd = .ok i) ↔
    cmd ∈ [0x00#8, 0x01#8, 0x02#8, 0x03#8, 0x40#8, 0x41#8, 0x42#8, 0x43#8, 0x80#8] := by
  have hok : (∃ i, decode cmd = .ok i) ↔ (decode cmd).isOk = true := by
    cases decode cmd <;> simp [Except.isOk, Except.toBool]
  rw [hok]
  exact decode_iff_mem (Q := (·.isOk = true)) (by decide) (by decide) (by decide) cmd

/-- Settles O1: the nine words one by one, and no other word is accepted. -/
theorem nineWordsDecode : Obligations.NineWordsDecode := by
  refine ⟨rfl, rfl, rfl, rfl, rfl, rfl, rfl, rfl, rfl, fun cmd hcmd => ?_⟩
  cases hd : decode cmd with
  | error why => exact ⟨why, rfl⟩
  | ok i => exact absurd ((decode_ok_iff cmd).1 ⟨i, hd⟩) hcmd

/-- Settles O2: one clause for each answer of the decoder. -/
theorem illegalWordsAreThese : Obligations.IllegalWordsAreThese := fun cmd =>
  ⟨by rw [decode_eq_reservedBits_iff, ne_eq, ne_eq, shift_and_mask_eq_zero_iff],
    decode_eq_reservedOp_iff cmd, decode_eq_digitWithWidth_iff cmd, decode_ok_iff cmd⟩

end Sys2Proof

namespace Sys2Proof.Machine

/-! ### Responses and DST bytes -/

@[simp] theorem State.takeFault_active (s : State) (f : HwFault) :
    (s.takeFault f).active = s.active.ended (faultResponse f) := by
  simp [State.active]

theorem parseTransaction_resp (w : Width) (s : State) :
    (parseTransaction w s).active.resp = doneResponse (parseUint w (srcOperand s)).1 (parseUint w (srcOperand s)).2 0 := by
  simp [parseTransaction, rokOfDecode]

/-- The response of a DIGIT, from VAL alone (R72, R101). -/
theorem digitTransaction_resp (s : State) : (digitTransaction s).active.resp =
    if s.active.req.val.toNat < 256 then
      doneResponse (parseDigit (s.active.req.val.extractLsb' 0 8)).1 (parseDigit (s.active.req.val.extractLsb' 0 8)).2 0
    else faultResponse (.illegalOperand s.active.req.val) := by
  split
  next h => simp [digitTransaction_of_lt h]
  next h => simp [digitTransaction_of_le (Nat.not_lt.1 h)]

/-- The response of a COPY, from VAL and DLEN alone (R71, R106, R107). -/
theorem copyTransaction_resp (w : Width) (s : State) : (copyTransaction w s).active.resp =
    if s.active.req.val.toNat < 2 ^ w.bits then doneResponse 0 true (min s.active.req.dst.len (nd s.active.req.val.toNat))
    else faultResponse (.illegalOperand s.active.req.val) := by
  split
  next h => simp [copyTransaction_of_lt h]
  next h => simp [copyTransaction_of_le (Nat.not_lt.1 h)]

/-- The DST bytes that RCNT counts are those of copyText, from VAL and DLEN alone (R106, R114); a fault counts none. -/
theorem copyTransaction_byte {w : Width} {s : State} {n : Nat} (hn : n < (copyTransaction w s).active.resp.rcnt.toNat) :
    (copyTransaction w s).byte (s.active.req.dst.base + n) =
      (copyText s.active.req.dst.len s.active.req.val.toNat).getD n 0 := by
  rw [copyTransaction_resp] at hn
  split at hn
  next h =>
    have hlen : n < (copyText s.active.req.dst.len s.active.req.val.toNat).length := by
      rwa [doneResponse, toNat_rcnt _ h, ← length_copyText] at hn
    simpa [copyTransaction_of_lt h, State.byte] using Memory.read_writeBytes_inside hlen
  next => exact absurd hn (Nat.not_lt_zero n)

/-- Settles O30: each family's response, and the bytes of a COPY, are functions of the fields it reads. -/
theorem resultDependsOnOperandsOnly : Obligations.ResultDependsOnOperandsOnly := by
  intro i s p hsrc hval hlen
  rcases i.cases_family with ⟨w, rfl⟩ | ⟨w, rfl⟩ | rfl
  · have hsrc := hsrc (parseOf_readsSrc w)
    refine ⟨_, _, exec_parseOf w s, exec_parseOf w p, ?_, by simp⟩
    rw [parseTransaction_resp, parseTransaction_resp, hsrc]
  · have hval := hval (copyOf_readsSrc w)
    have hlen := hlen (copyOf_writesDst w)
    have hresp : (copyTransaction w s).active.resp = (copyTransaction w p).active.resp := by
      rw [copyTransaction_resp, copyTransaction_resp, hval, hlen]
    refine ⟨_, _, exec_copyOf w s, exec_copyOf w p, hresp, fun _ n hn => ?_⟩
    rw [copyTransaction_byte hn, copyTransaction_byte (hresp ▸ hn), hval, hlen]
  · refine ⟨_, _, exec_digit s, exec_digit p, ?_, by simp [Instr.writesDst]⟩
    rw [digitTransaction_resp, digitTransaction_resp, hval rfl]

end Sys2Proof.Machine
end

section
/-! SUPPORT. The decoder family: what a decode answers for each kind of text, and that PARSE and DIGIT end DONE with that answer
(spec 40_decoder.md R82 to R92 and R101). -/

namespace Sys2Proof.Machine

/-! ### The answer of a decode, from the text alone -/

@[simp] theorem parseUint_nil (w : Width) : parseUint w [] = (0, false) := rfl

/-- A decode has one of three kinds of answer, and its value and flag say which kind of outcome it had (R85). -/
theorem parseUint_cases (w : Width) (text : List Byte) :
    (parseUint w text = (0, false) ∧ decodeOutcome w text = .syntaxError) ∨
    (parseUint w text = (maxValue w, false) ∧
      (decodeOutcome w text = .lengthOverflow ∨ decodeOutcome w text = .magnitudeOverflow)) ∨
    (parseUint w text = (decVal text, true) ∧ text ≠ [] ∧ text.length ≤ maxDigits w ∧
      (∀ b ∈ text, isDigit b = true) ∧ decVal text ≤ maxValue w) := by
  obtain ⟨_, ho⟩ | ⟨_, ho⟩ | ⟨_, _, _, ho⟩ | ⟨_, _, _, _, ho⟩ | ⟨hne, hlen, hdig, hval, _⟩ := decodeOutcome_cases w text
  · exact .inl ⟨by simp only [parseUint, ho], ho⟩
  · exact .inr (.inl ⟨by simp only [parseUint, ho], .inl ho⟩)
  · exact .inl ⟨by simp only [parseUint, ho], ho⟩
  · exact .inr (.inl ⟨by simp only [parseUint, ho], .inr ho⟩)
  · exact .inr (.inr ⟨parseUint_success hne hlen hdig hval, hne, hlen, hdig, hval⟩)

/-- When a decode succeeds (R87). -/
theorem parseUint_eq_success_iff (w : Width) (text : List Byte) : parseUint w text = (decVal text, true) ↔
    text ≠ [] ∧ text.length ≤ maxDigits w ∧ (∀ b ∈ text, isDigit b = true) ∧ decVal text ≤ maxValue w := by
  refine ⟨fun h => ?_, fun ⟨hne, hlen, hdig, hval⟩ => parseUint_success hne hlen hdig hval⟩
  obtain ⟨hp, _⟩ | ⟨hp, _⟩ | ⟨_, hs⟩ := parseUint_cases w text
  · simp [hp] at h
  · simp [hp] at h
  · exact hs

/-- Within the length limit, the answer for a text of digits depends on its value alone (R84). -/
theorem parseUint_of_digits {w : Width} {text : List Byte} (hne : text ≠ []) (hlen : text.length ≤ maxDigits w)
    (hdig : ∀ b ∈ text, isDigit b = true) :
    parseUint w text = if decVal text ≤ maxValue w then (decVal text, true) else (maxValue w, false) := by
  split
  next h => exact parseUint_success hne hlen hdig h
  next h => exact parseUint_magnitude hne hlen hdig (Nat.not_le.1 h)

/-! ### Leading zeros -/

theorem isDigit_of_mem_zeros {n : Nat} : ∀ b ∈ List.replicate n 0x30#8, isDigit b = true := fun _ hb =>
  List.eq_of_mem_replicate hb ▸ isDigit_zero

theorem parseUint_leading_zeros {w : Width} {n : Nat} {text : List Byte} (hne : text ≠ [])
    (hdig : ∀ b ∈ text, isDigit b = true) (hlen : n + text.length ≤ maxDigits w) :
    parseUint w (List.replicate n 0x30#8 ++ text) = parseUint w text := by
  have hdig' : ∀ b ∈ List.replicate n 0x30#8 ++ text, isDigit b = true :=
    List.forall_mem_append.2 ⟨isDigit_of_mem_zeros, hdig⟩
  rw [parseUint_of_digits hne (by omega) hdig, parseUint_of_digits (by simp [hne]) (by simpa using hlen) hdig',
    decVal_leading_zeros]

theorem parseUint_zeros {w : Width} {n : Nat} (hpos : 1 ≤ n) (hlen : n ≤ maxDigits w) :
    parseUint w (List.replicate n 0x30#8) = (0, true) := by
  have hval : decVal (List.replicate n 0x30#8) = 0 := by simpa [decVal] using decVal_leading_zeros n []
  rw [parseUint_success (by simp; omega) (by simpa using hlen) isDigit_of_mem_zeros (by omega), hval]

/-- Settles O14: a text of digits and the same text after zeros have one value, and both are within the limit. -/
theorem parseIgnoresLeadingZeros : Obligations.ParseIgnoresLeadingZeros := fun w =>
  ⟨fun _ _ hne hdig hlen => parseUint_leading_zeros hne hdig hlen, by cases w <;> decide,
    fun _ hpos hlen => parseUint_zeros hpos hlen, fun _ _ h => parseUint_long (by simpa using h)⟩

/-! ### The end of a decode -/

/-- `t` is the state after the active transaction of `s` has ended DONE with the value and flag of `result` and
RCNT = 0, wrote no byte of memory and took no fault (R82). -/
structure State.Decoded (s t : State) (result : Nat × Bool) : Prop where
  status : t.active.resp.status = 0b00#2
  rval : t.active.resp.rval.toNat = result.1
  rok : t.active.resp.rok = result.2
  rcnt : t.active.resp.rcnt = 0
  faults : t.faults = s.faults
  memory : s.SameMemory t
  frame : s.TransactionFrame t

/-- RVAL holds a value below 2^64 exactly, so such a result is read back from the response. -/
theorem endTransaction_decoded (s : State) {result : Nat × Bool} (h : result.1 < 2 ^ 64) :
    s.Decoded (s.endTransaction (doneResponse result.1 result.2 0)) result where
  status := by simp [doneResponse, statusDone]
  rval := by simpa [doneResponse] using h
  rok := by simp [doneResponse]
  rcnt := by simp [doneResponse]
  faults := State.endTransaction_faults s _
  memory := fun _ => rfl
  frame := endTransaction_frame s s.mem _

theorem State.Decoded.rval_eq_zero {s t : State} {ok : Bool} (h : s.Decoded t (0, ok)) : t.active.resp.rval = 0 :=
  BitVec.eq_of_toNat_eq h.rval

/-- A PARSE ends with the answer of `parseUint` on SRC (R82, R96 to R99). -/
theorem exec_parse_decoded {i : Instr} {w : Width} (h : (i, w) ∈ parseCommands) (s : State) :
    ∃ t, exec i s = .next t ∧ s.Decoded t (parseUint w (srcOperand s)) :=
  ⟨parseTransaction w s, by rw [eq_parseOf_of_mem h, exec_parseOf], endTransaction_decoded s (parseUint_lt_rval w _)⟩

/-- A PARSE of a text whose answer is known ends with that answer. -/
theorem exec_parse_decoded_of_eq {i : Instr} {w : Width} {s : State} {result : Nat × Bool} (h : (i, w) ∈ parseCommands)
    (hr : parseUint w (srcOperand s) = result) : ∃ t, exec i s = .next t ∧ s.Decoded t result :=
  hr ▸ exec_parse_decoded h s

/-- A DIGIT with VAL < 256 ends with the answer of `parseDigit` on VAL[7:0] (R82, R101). -/
theorem exec_digit_decoded {s : State} (h : s.active.req.val.toNat < 256) :
    ∃ t, exec .digit s = .next t ∧ s.Decoded t (parseDigit (s.active.req.val.setWidth 8)) := by
  have hlt := parseDigit_lt (s.active.req.val.setWidth 8)
  refine ⟨_, ?_, endTransaction_decoded s (by omega)⟩
  rw [exec_digit, digitTransaction_of_lt h, BitVec.setWidth_eq_extractLsb' (by decide)]

/-- Settles O6: the end of a decode, for DIGIT and for each PARSE. -/
theorem decoderEndsDone : Obligations.DecoderEndsDone := by
  refine ⟨fun s hval => ?_, fun i w s h => ?_⟩
  · obtain ⟨t, ht, hd⟩ := exec_digit_decoded hval
    exact ⟨t, ht, hd.status, hd.rval, hd.rok, hd.rcnt, hd.faults, hd.memory, hd.frame⟩
  · obtain ⟨t, ht, hd⟩ := exec_parse_decoded h s
    exact ⟨t, ht, hd.status, hd.rval, hd.rok, hd.rcnt, hd.faults, hd.memory, hd.frame⟩

/-! ### PARSE -/

theorem srcOperand_ne_nil_iff (s : State) : srcOperand s ≠ [] ↔ 1 ≤ s.active.req.src.len := by
  rw [← List.length_pos_iff, length_srcOperand, Nat.succ_le_iff]

/-- Settles O7: the condition of success on the text, read from SRC byte by byte. -/
theorem parseSucceedsExactly : Obligations.ParseSucceedsExactly := by
  intro i w s h
  obtain ⟨t, ht, hd⟩ := exec_parse_decoded h s
  refine ⟨t, ht, ?_⟩
  rw [hd.rval, hd.rok, ← Prod.mk_inj, parseUint_eq_success_iff, srcOperand_ne_nil_iff, length_srcOperand,
    srcOperand_all_digits]
  simp only [isDigit_iff]

/-- Settles O8: the text is empty, and so is not a number. -/
theorem parseRejectsEmpty : Obligations.ParseRejectsEmpty := by
  intro i w s h hlen
  have hnil : srcOperand s = [] := List.length_eq_zero_iff.1 ((length_srcOperand s).trans hlen)
  obtain ⟨t, ht, hd⟩ := exec_parse_decoded_of_eq h (by rw [hnil, parseUint_nil])
  exact ⟨t, ht, hd.rval_eq_zero, hd.rok⟩

/-- Whether the digits of a too long text are looked at or not, its answer is the same (R89). -/
theorem longInput_eq (validate : Bool) (w : Width) (text : List Byte) : longInput validate w text = (maxValue w, false) := by
  rw [longInput, ite_self, ite_self]

/-- Settles O9: the length decides, at the machine and in a decoder built either way. -/
theorem parseLengthOverflows : Obligations.ParseLengthOverflows := by
  refine ⟨fun i w s h hlen => ?_, fun validate form w text hlen => ?_⟩
  · obtain ⟨t, ht, hd⟩ := exec_parse_decoded_of_eq h (parseUint_long (by rwa [length_srcOperand]))
    exact ⟨t, ht, hd.rval, hd.rok⟩
  · exact (if_pos hlen).trans (longInput_eq validate w text)

/-- Settles O10: the byte at index `n` keeps the text from being all digits. -/
theorem parseSyntaxErrors : Obligations.ParseSyntaxErrors := by
  intro i w s n h hlen hn hbyte
  have hdig : ¬ ∀ b ∈ srcOperand s, isDigit b = true := fun hall =>
    hbyte ((isDigit_iff _).1 ((srcOperand_all_digits s).1 hall n hn))
  obtain ⟨t, ht, hd⟩ := exec_parse_decoded_of_eq h (parseUint_syntax (by rwa [length_srcOperand]) hdig)
  exact ⟨t, ht, hd.rval_eq_zero, hd.rok⟩

/-- Settles O12: the three kinds of answer, one by one. -/
theorem parseValueByFlag : Obligations.ParseValueByFlag := by
  intro i w s h
  obtain ⟨hp, ho⟩ | ⟨hp, ho⟩ | ⟨hp, _, _, _, hval⟩ := parseUint_cases w (srcOperand s)
  all_goals
    obtain ⟨t, ht, hd⟩ := exec_parse_decoded_of_eq h hp
    refine ⟨t, ht, ?_⟩
  · exact ⟨fun _ => .inl ⟨hd.rval_eq_zero, ho⟩, fun hok => by simp [hd.rok] at hok⟩
  · exact ⟨fun _ => .inr ⟨hd.rval, ho⟩, fun hok => by simp [hd.rok] at hok⟩
  · exact ⟨fun hok => by simp [hd.rok] at hok, fun _ => ⟨hd.rval, hd.rval ▸ hval⟩⟩

/-! ### DIGIT -/

theorem parseDigit_of_digit {b : Byte} (h : 0x30 ≤ b.toNat ∧ b.toNat ≤ 0x39) : parseDigit b = (b.toNat - 0x30, true) :=
  if_pos ((isDigit_iff b).2 h)

theorem parseDigit_of_not_digit {b : Byte} (h : ¬ (0x30 ≤ b.toNat ∧ b.toNat ≤ 0x39)) : parseDigit b = (0, false) :=
  if_neg fun hb => h ((isDigit_iff b).1 hb)

/-- Settles O18: below 256 the byte of VAL has the code VAL, and from 256 on the operand is refused. -/
theorem digitDecodesOneByte : Obligations.DigitDecodesOneByte := by
  refine ⟨by decide, fun s => ⟨fun hval => ?_, fun hval => ?_⟩⟩
  · have hbyte : (s.active.req.val.setWidth 8).toNat = s.active.req.val.toNat := by
      rw [BitVec.toNat_setWidth, Nat.mod_eq_of_lt hval]
    obtain ⟨t, ht, hd⟩ := exec_digit_decoded hval
    refine ⟨t, ht, hd.status, hd.rcnt, ?_, hd.faults, hd.memory, hd.frame⟩
    rw [← hbyte]
    split
    next h =>
      rw [parseDigit_of_digit h] at hd
      exact ⟨hd.rval, hd.rok⟩
    next h =>
      rw [parseDigit_of_not_digit h] at hd
      exact ⟨hd.rval_eq_zero, hd.rok⟩
  · exact ⟨_, by rw [exec_digit, digitTransaction_of_le hval], takeFault_faultTaken s _⟩

end Sys2Proof.Machine
end

section
/-! SUPPORT. The encoder family: how a COPY with a legal operand ends, the count it returns, and what it does with an operand that
is too wide or a buffer that is empty (spec 41_encoder.md R106 to R113). -/

namespace Sys2Proof.Machine

/-! ### The end of a COPY -/

/-- The bytes of copyText are a prefix of the canonical text (R110). -/
theorem getD_copyText {dlen u n : Nat} (h : n < min dlen (nd u)) : (copyText dlen u).getD n 0 = (canon u).getD n 0 := by
  have hd : n < dlen := h.trans_le (min_le_left _ _)
  rw [List.getD_eq_getElem?_getD, List.getD_eq_getElem?_getD, copyText, List.getElem?_take_of_lt hd]

/-- `t` is the state after the active transaction of `s` has ended DONE with RVAL = 0 and ROK = 1, put the bytes of `text` in DST,
first byte first, with their number in RCNT, and changed no other byte of memory and took no fault (R106, R112). -/
structure State.Copied (s t : State) (text : List Byte) : Prop where
  status : t.active.resp.status = 0b00#2
  rval : t.active.resp.rval = 0
  rok : t.active.resp.rok = true
  rcnt : t.active.resp.rcnt.toNat = text.length
  written : ∀ n, n < text.length → t.byte (s.active.req.dst.base + n) = text.getD n 0
  kept : ∀ a, ¬ (s.active.req.dst.base ≤ a ∧ a < s.active.req.dst.base + text.length) → t.byte a = s.byte a
  faults : t.faults = s.faults
  frame : s.TransactionFrame t

/-- RCNT is wide enough for a text of the width, so the count is read back from the response (R35). -/
theorem copyTransaction_rcnt {w : Width} {s : State} (h : s.active.req.val.toNat < 2 ^ w.bits) :
    (copyTransaction w s).active.resp.rcnt.toNat = min s.active.req.dst.len (nd s.active.req.val.toNat) := by
  rw [copyTransaction_resp, if_pos h, doneResponse, toNat_rcnt _ h]

/-- A COPY with VAL < 2^W ends with the bytes of copyText in DST (R106, R114). -/
theorem copyTransaction_copied {w : Width} {s : State} (h : s.active.req.val.toNat < 2 ^ w.bits) :
    s.Copied (copyTransaction w s) (copyText s.active.req.dst.len s.active.req.val.toNat) where
  status := by rw [copyTransaction_resp, if_pos h]; rfl
  rval := by rw [copyTransaction_resp, if_pos h]; rfl
  rok := by rw [copyTransaction_resp, if_pos h]; rfl
  rcnt := by rw [copyTransaction_rcnt h, length_copyText]
  written := fun _ hn => copyTransaction_byte (by rwa [copyTransaction_rcnt h, ← length_copyText])
  kept := fun _ ha => by
    rw [copyTransaction_of_lt h]
    exact Memory.read_writeBytes_outside ha
  faults := by rw [copyTransaction_of_lt h]; rfl
  frame := by rw [copyTransaction_of_lt h]; exact endTransaction_frame s _ _

theorem exec_copy_copied {i : Instr} {w : Width} {s : State} (h : (i, w) ∈ copyCommands)
    (hval : s.active.req.val.toNat < 2 ^ w.bits) :
    ∃ t, exec i s = .next t ∧ s.Copied t (copyText s.active.req.dst.len s.active.req.val.toNat) :=
  ⟨copyTransaction w s, by rw [eq_copyOf_of_mem h, exec_copyOf], copyTransaction_copied hval⟩

/-- The count of a COPY: the smaller of the buffer's and the canonical text's length (R111). -/
theorem State.Copied.count {s t : State} {dlen u : Nat} (h : s.Copied t (copyText dlen u)) :
    t.active.resp.rcnt.toNat = min dlen (nd u) :=
  h.rcnt.trans (length_copyText dlen u)

/-! ### COPY -/

/-- Settles O20: DST holds the bytes of copyText, which are the leading ones of the canonical text. -/
theorem copyWritesLeadingDigits : Obligations.CopyWritesLeadingDigits := by
  intro i w s h hval
  obtain ⟨t, ht, hc⟩ := exec_copy_copied h hval
  have hwritten := hc.written
  have hkept := hc.kept
  rw [length_copyText] at hwritten hkept
  exact ⟨t, ht, hc.status, hc.rval, hc.rok, hc.count, fun n hn => (hwritten n hn).trans (getD_copyText hn), hkept,
    hc.faults, hc.frame⟩

/-- Settles O21: a wide operand is refused before any write, and no VAL is too wide for COPY.U64. -/
theorem copyRefusesWideOperand : Obligations.CopyRefusesWideOperand := by
  refine ⟨fun i w s h hval => ⟨_, exec_copy_wide h hval, takeFault_faultTaken s _⟩, fun s => ?_⟩
  obtain ⟨t, ht, hc⟩ := exec_copy_copied (copyOf_mem .w64) s.active.req.val.isLt
  exact ⟨t, ht, hc.faults, hc.status⟩

/-- Settles O22: a legal operand gives an empty text, and a refused one writes nothing at all. -/
theorem copyIntoEmptyBuffer : Obligations.CopyIntoEmptyBuffer := by
  intro i w s h hlen
  rcases Nat.lt_or_ge s.active.req.val.toNat (2 ^ w.bits) with hval | hval
  · obtain ⟨t, ht, hc⟩ := exec_copy_copied h hval
    have hnone : (copyText s.active.req.dst.len s.active.req.val.toNat).length = 0 := by simp [hlen]
    exact ⟨t, ht, fun a => hc.kept a (by omega), BitVec.eq_of_toNat_eq (hc.rcnt.trans hnone)⟩
  · obtain ⟨_, _, _, hrcnt, _, hmem, _⟩ := takeFault_faultTaken s (.illegalOperand s.active.req.val)
    exact ⟨_, exec_copy_wide h hval, hmem, hrcnt⟩

/-- Settles O23: the canonical text has from 1 to maxDigits(W) bytes. -/
theorem copyCountInRange : Obligations.CopyCountInRange := by
  intro i w s h hval
  obtain ⟨t, ht, hc⟩ := exec_copy_copied h hval
  have hcount := hc.count
  have hpos := nd_pos s.active.req.val.toNat
  have hmax := nd_le_maxDigits hval
  exact ⟨t, ht, hcount, by omega, by omega⟩

/-- Settles O24: the count is below nd(u) only if DLEN is, and nd(u) is at most maxDigits(W). -/
theorem truncationShowsInCount : Obligations.TruncationShowsInCount := by
  intro i w s h hval
  obtain ⟨t, ht, hc⟩ := exec_copy_copied h hval
  have hmax := nd_le_maxDigits hval
  refine ⟨t, ht, hc.status, hc.rok, hc.faults, ?_, fun hlen => ?_⟩
  · rw [hc.count, min_lt_iff, or_iff_left (lt_irrefl _)]
  · rw [hc.count, min_eq_right (hmax.trans hlen)]

end Sys2Proof.Machine
end

section
/-! SUPPORT. The exceptions family: which command words are illegal by their fields, and how the turn of a transaction ends, by
whether its command word is legal (spec 60_exceptions.md R128 to R137). -/

namespace Sys2Proof.Machine

/-! ### Illegal words by their fields -/

/-- Each condition of R134 makes a command word illegal. -/
theorem decode_error_of_fields {cmd : BitVec 8} (h : rsvField cmd ≠ 0b0000#4 ∨ opField cmd = 0b11#2 ∨
    (opField cmd = 0b10#2 ∧ wselField cmd ≠ 0b00#2)) : ∃ why, decode cmd = .error why := by
  by_cases hrsv : rsvField cmd = 0b0000#4
  · obtain hne | hop | ⟨hop, hwsel⟩ := h
    · exact absurd hrsv hne
    · exact ⟨.reservedOp, by simp [decode, hrsv, hop]⟩
    · exact ⟨.digitWithWidth, by simp [decode, hrsv, hop, hwsel]⟩
  · exact ⟨_, decode_of_rsvField_ne hrsv⟩

/-! ### The end of a command and of a fault -/

theorem State.FaultTaken.status {s t : State} {f : HwFault} (h : s.FaultTaken t f) : t.active.resp.status = f.code := h.1

theorem State.FaultTaken.record {s t : State} {f : HwFault} (h : s.FaultTaken t f) :
    ∃ r, t.faults = s.faults ++ [r] ∧ r.event = .hw f ∧ r.ci = s.active.ci := by
  obtain ⟨_, _, _, _, hrecord, _⟩ := h
  exact hrecord

theorem State.FaultTaken.frame {s t : State} {f : HwFault} (h : s.FaultTaken t f) : s.TransactionFrame t := by
  obtain ⟨_, _, _, _, _, _, hframe⟩ := h
  exact hframe

/-- A command ends DONE with no fault recorded, or takes IllegalOperand; it never takes IllegalCommand (R128, R135, R136). -/
theorem exec_ends (i : Instr) (s : State) : ∃ t, exec i s = .next t ∧
    ((t.active.resp.status = 0b00#2 ∧ t.faults = s.faults ∧ s.TransactionFrame t) ∨
      s.FaultTaken t (.illegalOperand s.active.req.val)) := by
  obtain ⟨v, ok, k, bs, he, _⟩ | he := exec_cases i s
  · exact ⟨_, he, .inl ⟨by simp [doneResponse, statusDone], by simp, endTransaction_frame s _ _⟩⟩
  · exact ⟨_, he, .inr (takeFault_faultTaken s _)⟩

/-! ### The turn of a transaction -/

section Turn

variable {s u t : State} {k : Nat}

theorem State.Turn.inst_eq (h : s.Turn k u) (j : Nat) : u.inst j = s.inst j := by
  obtain ⟨es, rfl⟩ := h.eq_withScript
  exact State.withScript_inst s es j

theorem State.Turn.faults_eq (h : s.Turn k u) : u.faults = s.faults := by
  obtain ⟨es, rfl⟩ := h.eq_withScript
  exact State.withScript_faults s es

/-- A turn with an illegal command word takes IllegalCommand and performs no command (R134). -/
theorem State.Turn.step_illegal {why : IllegalWord} (h : s.Turn k u) (hd : decode (s.inst k).req.cmd = .error why) :
    ∃ t, step s = .next t ∧ (u.withCur k).FaultTaken t (.illegalCommand (s.inst k).req.cmd) := by
  rw [← h.inst_eq] at hd
  rw [h.step_eq, ← h.inst_eq]
  exact ⟨_, transactionOutcome_illegal hd, takeFault_faultTaken _ _⟩

/-- A turn with a legal command word ends as its command does, on the operand latched (R128, R136). -/
theorem State.Turn.step_legal {i : Instr} (h : s.Turn k u) (hd : decode (s.inst k).req.cmd = .ok i) :
    ∃ t, step s = .next t ∧
      ((t.active.resp.status = 0b00#2 ∧ t.faults = s.faults ∧ (u.withCur k).TransactionFrame t) ∨
        (u.withCur k).FaultTaken t (.illegalOperand (s.inst k).req.val)) := by
  rw [← h.inst_eq] at hd
  rw [h.step_eq, transactionOutcome_legal hd, ← h.inst_eq, ← h.faults_eq]
  exact exec_ends i (u.withCur k)

/-- The record of a fault taken in the turn, in terms of the state before the step (R129, R139). -/
theorem State.Turn.record {f : HwFault} (h : s.Turn k u) (hf : (u.withCur k).FaultTaken t f) :
    ∃ r, t.faults = s.faults ++ [r] ∧ r.event = .hw f ∧ r.ci = (s.inst k).ci := by
  rw [← h.inst_eq, ← h.faults_eq]
  exact hf.record

/-- After the turn the active instance is still the transaction's. -/
theorem State.TransactionFrame.active_eq (h : (u.withCur k).TransactionFrame t) : t.active = t.inst k := by
  rw [State.active, h.cur_eq]

end Turn

/-! ### The statements -/

/-- Settles O33: a word with one of the three conditions does not decode. -/
theorem illegalCommandFaults : Obligations.IllegalCommandFaults := by
  intro s u k hturn hfields
  obtain ⟨why, hd⟩ := decode_error_of_fields hfields
  exact hturn.step_illegal hd

/-- Settles O34: the decoder's answer settles which fault the turn may take. -/
theorem illegalCommandComesFirst : Obligations.IllegalCommandComesFirst := by
  refine ⟨fun s u k hturn => ?_, rfl, rfl⟩
  cases hd : decode (s.inst k).req.cmd with
  | error why =>
    obtain ⟨t, ht, hfault⟩ := hturn.step_illegal hd
    exact ⟨t, ht, fun _ _ => hturn.record hfault, nofun⟩
  | ok i =>
    obtain ⟨t, ht, ⟨_, hnone, _⟩ | hfault⟩ := hturn.step_legal hd
    · exact ⟨t, ht, nofun, fun _ _ => .inl hnone⟩
    · exact ⟨t, ht, nofun, fun _ _ => .inr (hturn.record hfault)⟩

/-- Settles O35: an illegal word ends in the first fault, a legal one DONE or in the second. -/
theorem transactionEndsThreeWays : Obligations.TransactionEndsThreeWays := by
  intro s u k hturn
  cases hd : decode (s.inst k).req.cmd with
  | error why =>
    obtain ⟨t, ht, hfault⟩ := hturn.step_illegal hd
    exact ⟨t, ht, hfault.frame, .inr (.inl ⟨hfault.frame.active_eq ▸ hfault.status, hfault⟩)⟩
  | ok i =>
    obtain ⟨t, ht, ⟨hdone, hnone, hframe⟩ | hfault⟩ := hturn.step_legal hd
    · exact ⟨t, ht, hframe, .inl ⟨hframe.active_eq ▸ hdone, hnone⟩⟩
    · exact ⟨t, ht, hfault.frame, .inr (.inr ⟨hfault.frame.active_eq ▸ hfault.status, hfault⟩)⟩

end Sys2Proof.Machine
end

section
/-! SUPPORT. The reset family: what a reset of one instance does to each field, and which bytes of memory it leaves
(spec 70_reset_and_hazards.md R151 to R154). -/

namespace Sys2Proof.Machine

/-! ### The state a reset of one instance leaves -/

variable (k : Nat) (s : State)

/-- The named instance is in the reset state, and no other instance changes (R152, R153). -/
@[simp] theorem afterReset_inst (j : Nat) : (afterReset k s).inst j = if j = k then Inst.reset else s.inst j := by
  simp [afterReset]

@[simp] theorem afterReset_mem : (afterReset k s).mem =
    Memory.writeBytes s.mem (s.inst k).req.dst.base (drawBytes s.draws (openBytes (s.inst k))) := rfl
@[simp] theorem afterReset_faults : (afterReset k s).faults = s.faults := rfl
@[simp] theorem afterReset_cur : (afterReset k s).cur = s.cur := rfl
@[simp] theorem afterReset_script : (afterReset k s).script = s.script := rfl
@[simp] theorem afterReset_readout : (afterReset k s).readout = s.readout := rfl
@[simp] theorem afterReset_draws : (afterReset k s).draws = s.draws + openBytes (s.inst k) := rfl

variable {k s}

/-- A reset that leaves no byte of DST open writes no byte and draws none (R154). -/
theorem afterReset_of_openBytes_eq_zero (h : openBytes (s.inst k) = 0) :
    s.SameMemory (afterReset k s) ∧ (afterReset k s).draws = s.draws := by
  have hmem : (afterReset k s).mem = s.mem := by rw [afterReset_mem, h]; rfl
  have hdraws : (afterReset k s).draws = s.draws := by rw [afterReset_draws, h, Nat.add_zero]
  exact ⟨fun a => by rw [State.byte, State.byte, hmem], hdraws⟩

/-- With a reset of an existing instance next, the step answers the state that reset leaves. -/
theorem step_reset_eq {es : List Event} (hs : s.script = .reset k :: es) (hk : Config.hasInstance k = true) :
    step s = .next (afterReset k (s.withScript es)) :=
  (step_reset hs).trans (hostReset_eq hk)

/-! ### The statements -/

/-- Settles O47: each field of the state the reset leaves; with no COPY in progress there, no byte is open. -/
theorem resetOneInstance : Obligations.ResetOneInstance := by
  intro s k es hs hk
  refine ⟨_, step_reset_eq hs hk, ?_, ?_, ?_, fun j hj => ?_, afterReset_faults k _, afterReset_script k _,
    afterReset_cur k _, afterReset_readout k _, fun hidle => ?_⟩
  · rw [afterReset_inst, if_pos rfl, Inst.reset_busy]
  · rw [afterReset_inst, if_pos rfl, Inst.reset_rvalid]
  · rw [afterReset_inst, if_pos rfl, Inst.reset_ci]
  · rw [afterReset_inst, if_neg hj, State.withScript_inst]
  · exact afterReset_of_openBytes_eq_zero (s := s.withScript es) (openBytes_eq_zero hidle)

end Sys2Proof.Machine
end

section
/-! SUPPORT. The invariant of Safety.lean: legal responses, and that latching a request, ending a transaction, a host write and a
reset of one instance keep it (spec 10_state.md R32 to R35, 70_reset_and_hazards.md R161). -/

namespace Sys2Proof.Machine

/-! ### Legal responses and instances -/

/-- What `Inst.Legal` asks of the four response registers alone (R33 to R35). -/
def Response.Legal (r : Response) : Prop :=
  r.status ≠ 0b11#2 ∧ r.rcnt.toNat ≤ 20 ∧ (r.status ≠ statusDone → r.rval = 0 ∧ r.rok = false ∧ r.rcnt = 0)

theorem Inst.legal_iff (x : Inst) : x.Legal ↔ x.resp.Legal ∧ (x.rvalid = true ↔ 0 < x.ci) := by
  simp only [Inst.Legal, Response.Legal, and_assoc]

theorem doneResponse_legal (value : Nat) (ok : Bool) {count : Nat} (h : count ≤ 20) : (doneResponse value ok count).Legal := by
  refine ⟨(by decide : statusDone ≠ 0b11#2), ?_, fun hne => absurd rfl hne⟩
  rw [doneResponse, BitVec.toNat_ofNat]
  omega

theorem faultResponse_legal (f : HwFault) : (faultResponse f).Legal := by
  refine ⟨?_, Nat.zero_le 20, fun _ => ⟨rfl, rfl, rfl⟩⟩
  cases f with
  | illegalCommand cmd => exact (by decide : statusFaultCmd ≠ 0b11#2)
  | illegalOperand val => exact (by decide : statusFaultOperand ≠ 0b11#2)

theorem Inst.reset_legal : Inst.reset.Legal := by
  simp [Inst.Legal, Inst.reset, Response.reset]

theorem Inst.ended_legal (x : Inst) {r : Response} (h : r.Legal) : (x.ended r).Legal :=
  (Inst.legal_iff _).2 ⟨h, by simp⟩

theorem Inst.latched_legal {x : Inst} (r : Request) (h : x.Legal) : (x.latched r).Legal := h

/-! ### Which launches are refused -/

/-- `issueConflicts` says what its name says (R161). -/
theorem State.issueConflicts_iff (s : State) (k : Nat) (r : Request) : s.issueConflicts k r = true ↔
    ∃ j, j ≠ k ∧ (s.inst j).busy = true ∧ r.conflicts (s.inst j).req = true := by
  rw [State.issueConflicts, State.anyBusy_iff]
  simp only [Bool.and_eq_true, decide_eq_true_eq, and_left_comm]

theorem State.issueConflicts_eq_false_iff (s : State) (k : Nat) (r : Request) : s.issueConflicts k r = false ↔
    ∀ j, j ≠ k → (s.inst j).busy = true → r.conflicts (s.inst j).req = false := by
  rw [← Bool.not_eq_true, State.issueConflicts_iff]
  simp only [not_exists, not_and, Bool.not_eq_true]

/-! ### The invariant under the updates of State -/

/-- The invariant reads host memory and the list of instances only. -/
theorem State.Inv.congr {s t : State} (h : s.Inv) (hmem : t.mem = s.mem) (hinsts : t.insts = s.insts) : t.Inv := by
  have hinst : t.inst = s.inst := funext fun k => by rw [State.inst, State.inst, hinsts]
  unfold State.Inv State.InstancesExist State.BuffersDisjoint at h ⊢
  rwa [hmem, hinsts, hinst]

theorem State.Inv.mem_wf {s : State} (h : s.Inv) : Memory.wf s.mem = true := h.1

theorem State.Inv.legal {s : State} (h : s.Inv) (k : Nat) : (s.inst k).Legal := by
  obtain ⟨_, _, hlegal, _⟩ := h
  exact hlegal k

theorem State.Inv.withMem {s : State} {m : List Host.Cell} (h : s.Inv) (hm : Memory.wf m = true) : (s.withMem m).Inv := by
  obtain ⟨_, hinsts⟩ := h
  exact ⟨hm, hinsts⟩

theorem State.Inv.afterDraws {s : State} (h : s.Inv) (n : Nat) : (s.afterDraws n).Inv := h.congr rfl rfl

/-- Writing the registers of one existing instance keeps the invariant if they are legal and, where they start a transaction, its
buffers conflict with none in use elsewhere. -/
theorem State.Inv.withInst {s : State} {k : Nat} {x : Inst} (h : s.Inv) (hk : Config.hasInstance k = true) (hx : x.Legal)
    (hc : x.busy = true → ∀ j, j ≠ k → (s.inst j).busy = true → x.req.conflicts (s.inst j).req = false) :
    (s.withInst k x).Inv := by
  obtain ⟨hmem, hinsts, hlegal, hexist, hdisjoint⟩ := h
  refine ⟨hmem, Sparse.wf_set _ k x hinsts, fun j => ?_, fun j hj => ?_, fun i j hij hi hj => ?_⟩
  · rw [State.withInst_inst]
    split
    next => exact hx
    next => exact hlegal j
  · have hne : j ≠ k := by rintro rfl; simp [hk] at hj
    rw [State.withInst_inst, if_neg hne]
    exact hexist j hj
  · by_cases hik : i = k
    · subst hik
      simp only [State.withInst_inst, if_true, if_neg hij.symm] at hi hj ⊢
      exact hc hi j hij.symm hj
    · by_cases hjk : j = k
      · subst hjk
        simp only [State.withInst_inst, if_true, if_neg hij] at hi hj ⊢
        rw [Request.conflicts_comm]
        exact hc hj i hij hi
      · simp only [State.withInst_inst, if_neg hik, if_neg hjk] at hi hj ⊢
        exact hdisjoint i j hij hi hj

/-- Only existing instances have a transaction in progress (R147). -/
theorem State.Inv.hasInstance_of_busy {s : State} {k : Nat} (h : s.Inv) (hb : (s.inst k).busy = true) :
    Config.hasInstance k = true := by
  obtain ⟨_, _, _, hexist, _⟩ := h
  by_contra hk
  rw [hexist k (Bool.not_eq_true _ ▸ hk)] at hb
  exact absurd hb (by decide)

theorem State.Inv.endTransaction {s : State} {r : Response} (h : s.Inv) (hb : s.active.busy = true) (hr : r.Legal) :
    (s.endTransaction r).Inv :=
  h.withInst (h.hasInstance_of_busy hb) (Inst.ended_legal _ hr) (fun hbusy => by simp at hbusy)

theorem State.Inv.takeFault {s : State} {f : HwFault} (h : s.Inv) (hb : s.active.busy = true) : (s.takeFault f).Inv :=
  (h.endTransaction hb (faultResponse_legal f)).congr rfl rfl

/-! ### The invariant over one step -/

/-- The end of a transaction keeps the invariant, whichever way it ends (R128). -/
theorem State.Inv.transactionOutcome {s t : State} {k : Nat} (h : s.Inv) (hb : (s.inst k).busy = true)
    (ht : transactionOutcome k s = .next t) : t.Inv := by
  have hcur : (s.withCur k).Inv := h.congr rfl rfl
  obtain ⟨u, hu, _, ⟨v, ok, c, bs, rfl, hc, _⟩ | rfl | rfl⟩ := transactionOutcome_cases k s
  all_goals obtain rfl := Host.Outcome.next.inj (hu.symm.trans ht)
  · exact (hcur.withMem (Memory.wf_writeBytes bs _ h.mem_wf)).endTransaction hb (doneResponse_legal v ok hc)
  · exact hcur.takeFault hb
  · exact hcur.takeFault hb

/-- A reset of one existing instance keeps the invariant, whatever bytes it draws (R154). -/
theorem State.Inv.afterReset {s : State} {k : Nat} (h : s.Inv) (hk : Config.hasInstance k = true) : (afterReset k s).Inv := by
  have hwf := Memory.wf_writeBytes (drawBytes s.draws (openBytes (s.inst k))) (s.inst k).req.dst.base h.mem_wf
  exact ((h.withMem hwf).afterDraws _).withInst hk Inst.reset_legal (fun hbusy => by simp at hbusy)

/-- Settles O51: the invariant under each kind of step. -/
theorem stepKeepsInvariant : Obligations.StepKeepsInvariant := by
  intro s t h ht
  have hscript : ∀ es, (s.withScript es).Inv := fun es => h.congr rfl rfl
  obtain ⟨k, u, es, hb, _, hu, rfl⟩ | ⟨k, r, es, _, _, hk, hc, rfl⟩ | ⟨k, es, _, hk, hr⟩ | ⟨a, bs, es, _, rfl⟩ |
    ⟨k, reg, es, _, rfl⟩ | ⟨es, r, _, rfl | rfl | rfl⟩ := step_cases ht
  · exact (hscript es).transactionOutcome hb hu
  · exact (hscript es).withInst hk (Inst.latched_legal r (h.legal k)) fun _ => (State.issueConflicts_eq_false_iff s k r).1 hc
  · obtain rfl := Host.Outcome.next.inj ((hostReset_eq hk).symm.trans hr)
    exact (hscript es).afterReset hk
  · exact (hscript es).withMem (Memory.wf_writeBytes bs a h.mem_wf)
  · exact h.congr rfl rfl
  · exact h.congr rfl rfl
  · exact h.congr rfl rfl
  · exact h

/-- Settles O50: nothing is listed, and every instance is the reset one. -/
theorem resetMeetsInvariant : Obligations.ResetMeetsInvariant :=
  ⟨State.reset_mem_wf, rfl, fun _ => Inst.reset_legal, fun _ _ => rfl, fun j _ _ hj _ => by simp at hj⟩

/-- Settles O52: the fault list and every instance at their reset values. -/
theorem resetIsIdle : Obligations.ResetIsIdle :=
  ⟨State.reset_faults, fun k => by rw [State.reset_inst]; exact ⟨Inst.reset_busy, Inst.reset_rvalid, Inst.reset_ci⟩⟩

end Sys2Proof.Machine
end

section
/-! SUPPORT. Encodings, widths and the decoder: what a PARSE answers for particular texts, what a host reads from it, and that the
reference decoder and the width-8 form compute the same answer (spec 10_state.md R22 and R41, 40_decoder.md R91 to R100). -/

namespace Sys2Proof.Machine

/-! ### Command words -/

theorem rsvField_encode (i : Instr) : rsvField (encode i) = 0b0000#4 := by cases i <;> decide

/-- Settles O3: of the sixteen words with RSV zero, only the command's own word decodes to it. -/
theorem decodeAndEncodeAgree : Obligations.DecodeAndEncodeAgree := by
  intro i cmd _
  rw [← List.mem_singleton (b := encode i)]
  refine decode_iff_mem (Q := (· = .ok i)) nofun (fun c hc => ?_) ?_ cmd
  · rw [List.mem_singleton.1 hc, rsvField_encode]
  · cases i <;> decide

/-! ### Width constants -/

/-- A value is below the power of ten that its canonical text is too short for. -/
theorem lt_pow_nd (v : Nat) : v < 10 ^ nd v := by
  have h := decVal_lt (canon_digits v)
  rwa [decVal_canon] at h

theorem maxDigits_eq (w : Width) : maxDigits w = nd (maxValue w) := by
  have hle := nd_le_maxDigits (le_maxValue_iff.1 (le_refl (maxValue w)))
  have hlt := (Nat.pow_lt_pow_iff_right (by decide)).1 ((pow_maxDigits_le w).trans_lt (lt_pow_nd (maxValue w)))
  omega

theorem cutoff_eq (w : Width) : cutoff w = maxValue w / 10 + 1 := by cases w <;> rfl

theorem maxValue_mod_ten (w : Width) : maxValue w % 10 = 5 := by cases w <;> rfl

/-- Settles O5: the facts about the cutoff hold because the last digit of maxValue(W) is 5 at every width. -/
theorem widthConstants : Obligations.WidthConstants := by
  intro w
  have hcut := cutoff_eq w
  have hmod := maxValue_mod_ten w
  refine ⟨maxValue_eq w, maxDigits_eq w, hcut, fun r d hr => ?_, fun d => ?_⟩ <;> omega

/-! ### Short texts of digits, and texts of one byte -/

/-- A text of digits that is shorter than maxDigits(W) is worth less than maxValue(W) (R91). -/
theorem decVal_lt_maxValue {w : Width} {text : List Byte} (hdig : ∀ b ∈ text, isDigit b = true)
    (hlen : text.length < maxDigits w) : decVal text < maxValue w :=
  calc decVal text < 10 ^ text.length := decVal_lt hdig
    _ ≤ 10 ^ (maxDigits w - 1) := Nat.pow_le_pow_right (by decide) (by omega)
    _ ≤ maxValue w := pow_maxDigits_le w

theorem parseUint_short {w : Width} {text : List Byte} (hne : text ≠ []) (hlen : text.length < maxDigits w)
    (hdig : ∀ b ∈ text, isDigit b = true) : parseUint w text = (decVal text, true) :=
  parseUint_success hne hlen.le hdig (decVal_lt_maxValue hdig hlen).le

/-- A one-byte text decodes as DIGIT decodes its byte (R93). -/
theorem parseUint_singleton (w : Width) (b : Byte) : parseUint w [b] = parseDigit b := by
  have hlen : [b].length < maxDigits w := maxDigits_pos w
  by_cases hb : isDigit b = true
  · rw [parseUint_short (by simp) hlen (by simpa using hb), parseDigit, if_pos hb]
    simp [decVal]
  · rw [parseUint_syntax hlen.le (by simpa using hb), parseDigit, if_neg hb]

/-- The bytes of an empty or too long text do not matter (R47). -/
theorem parseUint_congr_of_length {w : Width} {text text' : List Byte} (hlen : text'.length = text.length)
    (h : text.length = 0 ∨ maxDigits w < text.length) : parseUint w text' = parseUint w text := by
  obtain hnil | hlong := h
  · rw [List.length_eq_zero_iff.1 hnil, List.length_eq_zero_iff.1 (hlen.trans hnil)]
  · rw [parseUint_long hlong, parseUint_long (hlen ▸ hlong)]

/-! ### PARSE -/

/-- Settles O11: at full length the value decides, and below it the value is always small enough. -/
theorem parseMagnitudeOverflows : Obligations.ParseMagnitudeOverflows := by
  intro i w s h hdig
  rw [← srcOperand_all_digits] at hdig
  rw [← srcOperand_ne_nil_iff, ← length_srcOperand]
  obtain ⟨t, ht, hd⟩ := exec_parse_decoded h s
  refine ⟨t, ht, fun hlen hval => ?_, fun hne hlen => ?_⟩
  · have hne : srcOperand s ≠ [] := by
      have := maxDigits_pos w
      rintro hnil
      simp [hnil] at hlen
      omega
    rw [parseUint_magnitude hne hlen.le hdig hval] at hd
    exact ⟨hd.rval, hd.rok⟩
  · rw [parseUint_short hne hlen hdig] at hd
    exact ⟨decVal_lt_maxValue hdig hlen, hd.rval, hd.rok⟩

theorem maxValue_ne_zero (w : Width) : maxValue w ≠ 0 := by cases w <;> decide

/-- What a host concludes from a DONE response of a decode, in terms of the result (R41). -/
theorem State.Decoded.hostVerdict_eq {s t : State} {result : Nat × Bool} (h : s.Decoded t result) :
    hostVerdict t.active.resp =
      if result.2 then .value result.1 else if result.1 = 0 then .syntaxError else .overflow := by
  have hdone : ¬ t.active.resp.status ≠ statusDone := not_not.2 h.status
  have hzero : t.active.resp.rval = 0 ↔ result.1 = 0 := by rw [← h.rval, ← BitVec.toNat_inj]; rfl
  simp only [hostVerdict, if_neg hdone, h.rok, h.rval, hzero]

/-- Settles O13: the value and flag of each of the four outcomes. -/
theorem hostTellsOutcomes : Obligations.HostTellsOutcomes := by
  intro i w s h
  obtain ⟨t, ht, hd⟩ := exec_parse_decoded h s
  refine ⟨t, ht, ?_⟩
  rw [hd.hostVerdict_eq]
  cases ho : decodeOutcome w (srcOperand s) <;> simp [parseUint, ho, maxValue_ne_zero]

/-- Settles O15: the canonical text is within the limit and its value is the one it was made from. -/
theorem parseReadsCanonicalText : Obligations.ParseReadsCanonicalText := by
  intro i w s v h hv hsrc
  obtain ⟨t, ht, hd⟩ := exec_parse_decoded_of_eq h (hsrc ▸ parseUint_canon hv)
  exact ⟨t, ht, hd.rval, hd.rok⟩

/-- Settles O19: both responses come from `parseDigit` on the byte. -/
theorem parseOneByteIsDigit : Obligations.ParseOneByteIsDigit := by
  intro i w s p h hlen hval
  have hsrc : srcOperand s = [s.byte s.active.req.src.base] := by
    simp [srcOperand, Memory.readSlice, hlen, Memory.readBytes, State.byte]
  have hbyte : p.active.req.val.toNat = (s.byte s.active.req.src.base).toNat := by
    rw [hval, BitVec.toNat_setWidth]
    omega
  have hlow : p.active.req.val.extractLsb' 0 8 = s.byte s.active.req.src.base := by
    apply BitVec.eq_of_toNat_eq
    rw [BitVec.extractLsb'_toNat, hbyte]
    exact Nat.mod_eq_of_lt (BitVec.isLt _)
  refine ⟨_, _, eq_parseOf_of_mem h ▸ exec_parseOf w s, exec_digit p, ?_⟩
  rw [parseTransaction_resp, digitTransaction_resp, hsrc, parseUint_singleton, 
    if_pos (hbyte ▸ BitVec.isLt _), hlow]

/-- Settles O31: the two texts have one length, and for such a length the answer depends on nothing else. -/
theorem longInputBytesUnread : Obligations.LongInputBytesUnread := by
  intro i w s m h hlen
  rw [eq_parseOf_of_mem h]
  refine ⟨_, _, exec_parseOf w s, exec_parseOf w (s.withMem m), ?_⟩
  rw [← length_srcOperand] at hlen
  rw [parseTransaction_resp, parseTransaction_resp,
    parseUint_congr_of_length (text' := srcOperand (s.withMem m)) (by rw [length_srcOperand, length_srcOperand]; rfl) hlen]

/-! ### The run of the reference decoder, by the length of the text -/

/-- The lengths the reference decoder tells apart (R94). -/
theorem text_cases (w : Width) (text : List Byte) :
    text = [] ∨ (∃ b, text = [b]) ∨ (1 < text.length ∧ text.length < maxDigits w) ∨
      (∃ front last, text = front ++ [last] ∧ front.length + 1 = maxDigits w) ∨ maxDigits w < text.length := by
  have hpos := maxDigits_pos w
  rcases List.eq_nil_or_concat text with rfl | ⟨front, last, rfl⟩
  · exact .inl rfl
  · rw [List.concat_eq_append, List.length_append, List.length_singleton]
    rcases Nat.lt_trichotomy (front.length + 1) (maxDigits w) with hlt | heq | hgt
    · rcases Nat.eq_zero_or_pos front.length with hnil | hfront
      · exact .inr (.inl ⟨last, by rw [List.length_eq_zero_iff.1 hnil, List.nil_append]⟩)
      · exact .inr (.inr (.inl ⟨by omega, hlt⟩))
    · exact .inr (.inr (.inr (.inl ⟨front, last, rfl, heq⟩)))
    · exact .inr (.inr (.inr (.inr hgt)))

@[simp] theorem parseRefRun_nil (w : Width) : parseRefRun w [] = ((0, false), .start w) := rfl

@[simp] theorem parseRefRun_singleton (w : Width) (b : Byte) :
    parseRefRun w [b] = (parseDigit b, (DecoderWork.start w).read) := by
  have hpos := maxDigits_pos w
  simp [parseRefRun, Nat.not_lt.2 hpos.le]

theorem parseRefRun_long {w : Width} {text : List Byte} (h : maxDigits w < text.length) :
    parseRefRun w text = ((maxValue w, false), .start w) := by
  have hne : text.length ≠ 0 := by omega
  simp [parseRefRun, h, hne]

/-- Below maxDigits(W) bytes the loop reads the whole text (R94). -/
theorem parseRefRun_short {w : Width} {text : List Byte} (hpos : 1 < text.length) (hlen : text.length < maxDigits w) :
    parseRefRun w text =
      (if (accLoop (.start w) text).1 = false then (0, false) else ((accLoop (.start w) text).2.acc.toNat, true),
        (accLoop (.start w) text).2) := by
  simp only [parseRefRun, if_neg (show ¬ text.length = 0 by omega), if_neg (show ¬ text.length > maxDigits w by omega),
    if_neg (show ¬ text.length = 1 by omega), if_neg hlen.ne, List.take_length, if_true]
  split <;> rfl

/-- At maxDigits(W) bytes the last one is left to the overflow-aware step (R94). -/
theorem parseRefRun_full {w : Width} {front : List Byte} (last : Byte) (hlen : front.length + 1 = maxDigits w) :
    parseRefRun w (front ++ [last]) =
      if (accLoop (.start w) front).1 = false then ((0, false), (accLoop (.start w) front).2)
      else lastDigitStep (accLoop (.start w) front).2 last := by
  have hpos := maxDigits_pos w
  have htext : (front ++ [last]).length = maxDigits w := by simpa using hlen
  simp only [parseRefRun, htext, if_neg (show ¬ maxDigits w = 0 by omega), if_neg (show ¬ maxDigits w > maxDigits w by omega),
    if_neg (show ¬ maxDigits w = 1 by omega), if_true, show maxDigits w - 1 = front.length by omega, List.take_left,
    if_neg (show ¬ front.length = maxDigits w by omega)]
  simp

/-! ### The reference decoder computes parseUint -/

/-- The loop from ACC = 0 leaves the value of the digits in ACC, for every text below full length (R38). -/
theorem accLoop_start_acc {w : Width} {text : List Byte} (hdig : ∀ b ∈ text, isDigit b = true)
    (hlen : text.length < maxDigits w) : (accLoop (.start w) text).2.acc.toNat = decVal text := by
  have hpow : 10 ^ text.length ≤ 2 ^ accWidth w :=
    (Nat.pow_le_pow_right (by decide) (by omega)).trans (pow_le_two_pow_accWidth w)
  rw [accLoop_acc _ _ hdig (by simpa using hpow)]
  simp

/-- The overflow-aware last step decides as the whole text does, when ACC holds the value of the digits before it (R94). -/
theorem lastDigitStep_eq_parseUint {w : Width} {st : DecoderWork w} {front : List Byte} (last : Byte)
    (hdig : ∀ b ∈ front, isDigit b = true) (hlen : front.length + 1 = maxDigits w) (hacc : st.acc.toNat = decVal front) :
    (lastDigitStep st last).1 = parseUint w (front ++ [last]) := by
  have htext : (front ++ [last]).length ≤ maxDigits w := by simpa using hlen.le
  by_cases hlast : isDigit last = true
  · have hval : parseUint w (front ++ [last]) = if 10 * decVal front + digitVal last ≤ maxValue w then
        (10 * decVal front + digitVal last, true) else (maxValue w, false) := by
      rw [← decVal_snoc]
      exact parseUint_of_digits (by simp) htext (List.forall_mem_append.2 ⟨hdig, by simpa using hlast⟩)
    have hcut := cutoff_eq w
    rw [hval, lastDigitStep, if_neg (by simp [hlast]), hacc]
    by_cases hover : cutoff w ≤ decVal front
    · rw [if_pos hover, if_neg (by omega)]
    · have hten := ten_cutoff_le_two_pow_accWidth w
      have hd := digitVal_lt hlast
      have hfold : (st.read.fold last).acc.toNat = 10 * decVal front + digitVal last := by
        rw [DecoderWork.fold_acc, DecoderWork.read_acc, toNat_accStep _ (by omega), hacc]
      rw [if_neg hover, hfold]
      split_ifs
      · omega
      · rfl
      · rfl
      · omega
  · rw [lastDigitStep, if_pos (by simpa using hlast), parseUint_syntax htext (by simp [hlast])]

/-- Settles O16: the run of each length of text. -/
theorem decoderDatapathRefines : Obligations.DecoderDatapathRefines := by
  intro w text
  rw [parseRef]
  obtain rfl | ⟨b, rfl⟩ | ⟨hpos, hlen⟩ | ⟨front, last, rfl, hlen⟩ | hlong := text_cases w text
  · rw [parseRefRun_nil, parseUint_nil]
  · rw [parseRefRun_singleton, parseUint_singleton]
  · rw [parseRefRun_short hpos hlen, accLoop_ok]
    split
    next hbad => exact (parseUint_syntax hlen.le (by simpa using hbad)).symm
    next hok =>
      have hdig : ∀ b ∈ text, isDigit b = true := by simpa using hok
      rw [accLoop_start_acc hdig hlen, parseUint_short (List.length_pos_iff.1 (by omega)) hlen hdig]
  · rw [parseRefRun_full last hlen, accLoop_ok]
    split
    next hbad =>
      obtain ⟨b, hb, hnot⟩ : ∃ b ∈ front, isDigit b = false := by simpa using hbad
      refine (parseUint_syntax (by simpa using hlen.le) fun hdig => ?_).symm
      rw [hdig b (List.mem_append_left _ hb)] at hnot
      cases hnot
    next hok =>
      have hdig : ∀ b ∈ front, isDigit b = true := by simpa using hok
      exact lastDigitStep_eq_parseUint last hdig hlen (accLoop_start_acc hdig (by omega))
  · rw [parseRefRun_long hlong, parseUint_long hlong]

/-! ### The width-8 form -/

/-- The width-8 form tells its possible lengths apart and computes the same answer (R100). -/
theorem parseU8Specialised_eq : ∀ {text : List Byte}, text.length ≤ maxDigits .w8 →
    parseU8Specialised text = parseUint .w8 text
  | [], _ => rfl
  | [b], _ => (parseUint_singleton .w8 b).symm
  | [b0, b1], hlen => by
    have hshort : [b0, b1].length < maxDigits .w8 := Nat.lt_succ_self 2
    rw [parseU8Specialised]
    split
    next hdig =>
      rw [parseUint_short (by simp) hshort (by simpa using hdig)]
      simp [decVal, mul_comm]
    next hbad => exact (parseUint_syntax hlen (by simpa using hbad)).symm
  | [b0, b1, b2], hlen => by
    rw [parseU8Specialised]
    split
    next hdig =>
      obtain ⟨⟨h0, h1⟩, h2⟩ : (isDigit b0 = true ∧ isDigit b1 = true) ∧ isDigit b2 = true := by simpa using hdig
      have hval : decVal [b0, b1, b2] = 100 * digitVal b0 + 10 * digitVal b1 + digitVal b2 := by
        simp [decVal]
        ring
      rw [parseUint_of_digits (by simp) hlen (by simp [h0, h1, h2]), hval,
        u8Branches_eq _ (digitVal_lt h0) _ (digitVal_lt h1) _ (digitVal_lt h2)]
      rfl
    next hbad => exact (parseUint_syntax hlen (by simpa [and_assoc] using hbad)).symm
  | _ :: _ :: _ :: _ :: _, hlen => by
    simp only [maxDigits, widthTable, List.length_cons] at hlen
    omega

/-- Settles O17: a too long text has one answer either way, and both forms compute it otherwise. -/
theorem decoderChoicesUnobservable : Obligations.DecoderChoicesUnobservable := by
  intro form validate w text
  unfold parseBuilt
  split
  next hlong => rw [longInput_eq, parseUint_long hlong]
  next hlen =>
    split
    next => exact parseU8Specialised_eq (Nat.le_of_not_lt hlen)
    next => exact decoderDatapathRefines _ text

end Sys2Proof.Machine
end

section
/-! SUPPORT. The encoder: what a COPY does a second time, what a PARSE makes of its bytes, and that the reference encoder writes
the same bytes within the work bounds (spec 20_memory.md R54, 41_encoder.md R115 to R120 and R125, 70_reset_and_hazards.md R166). -/

namespace Sys2Proof.Machine

/-! ### Running a COPY again, and decoding what it wrote -/

theorem State.TransactionFrame.active_req {s t : State} (h : s.TransactionFrame t) : t.active.req = s.active.req := by
  obtain ⟨_, hreq, _⟩ := h
  exact hreq

theorem State.FaultTaken.sameMemory {s t : State} {f : HwFault} (h : s.FaultTaken t f) : s.SameMemory t := by
  obtain ⟨_, _, _, _, _, hmem, _⟩ := h
  exact hmem

/-- A COPY with a wide operand takes the fault (R107). -/
theorem copyTransaction_faultTaken {w : Width} {s : State} (h : 2 ^ w.bits ≤ s.active.req.val.toNat) :
    s.FaultTaken (copyTransaction w s) (.illegalOperand s.active.req.val) :=
  copyTransaction_of_le h ▸ takeFault_faultTaken s _

theorem copyTransaction_frame (w : Width) (s : State) : s.TransactionFrame (copyTransaction w s) := by
  rcases Nat.lt_or_ge s.active.req.val.toNat (2 ^ w.bits) with h | h
  · exact (copyTransaction_copied h).frame
  · exact (copyTransaction_faultTaken h).frame

/-- Two COPY commands in a row that put the same text at the same place leave the memory of the first. -/
theorem State.Copied.sameMemory_of_again {s t u : State} {text : List Byte} (h : s.Copied t text) (h' : t.Copied u text) :
    t.SameMemory u := by
  intro a
  have hbase : t.active.req.dst.base = s.active.req.dst.base := by rw [h.frame.active_req]
  by_cases ha : s.active.req.dst.base ≤ a ∧ a < s.active.req.dst.base + text.length
  · obtain ⟨n, rfl⟩ := Nat.exists_eq_add_of_le ha.1
    have hn : n < text.length := by omega
    rw [h.written n hn, ← h'.written n hn, hbase]
  · exact h'.kept a (hbase ▸ ha)

/-- Settles O26: the second run finds the same request, so it writes the same text, or faults as the first did. -/
theorem copyIsIdempotent : Obligations.CopyIsIdempotent := by
  intro i w s h
  rw [eq_copyOf_of_mem h]
  have hreq := (copyTransaction_frame w s).active_req
  refine ⟨_, _, exec_copyOf w s, exec_copyOf w _, ?_, ?_⟩
  · rcases Nat.lt_or_ge s.active.req.val.toNat (2 ^ w.bits) with hval | hval
    · have hagain := copyTransaction_copied (s := copyTransaction w s) (hreq ▸ hval)
      rw [hreq] at hagain
      exact (copyTransaction_copied hval).sameMemory_of_again hagain
    · exact (copyTransaction_faultTaken (s := copyTransaction w s) (hreq ▸ hval)).sameMemory
  · rw [copyTransaction_resp, copyTransaction_resp, hreq]

theorem copyText_of_nd_le {dlen u : Nat} (h : nd u ≤ dlen) : copyText dlen u = canon u := List.take_of_length_le h

/-- The bytes a COPY wrote, read back as one sequence. -/
theorem copyTransaction_readBytes {w : Width} {s : State} (h : s.active.req.val.toNat < 2 ^ w.bits) :
    Memory.readBytes (copyTransaction w s).mem s.active.req.dst.base
        (copyText s.active.req.dst.len s.active.req.val.toNat).length =
      copyText s.active.req.dst.len s.active.req.val.toNat := by
  rw [copyTransaction_of_lt h]
  exact Memory.readBytes_writeBytes _ _ _

/-- Settles O27: the buffer is large enough for the whole canonical text, which decodes to its value. -/
theorem encodeThenDecode : Obligations.EncodeThenDecode := by
  intro i j w s hi hj hval hlen
  rw [eq_copyOf_of_mem hi]
  refine ⟨_, exec_copyOf w s, fun k r hr => ?_⟩
  have hsrc : srcOperand (((copyTransaction w s).withInst k (((copyTransaction w s).inst k).latched r)).withCur k) =
      canon s.active.req.val.toNat := by
    have hactive : (((copyTransaction w s).withInst k (((copyTransaction w s).inst k).latched r)).withCur k).active.req = r := by
      simp
    rw [srcOperand, hactive, hr, Memory.readSlice, (copyTransaction_copied hval).rcnt]
    exact (copyTransaction_readBytes hval).trans (copyText_of_nd_le ((nd_le_maxDigits hval).trans hlen))
  obtain ⟨u, hu, hd⟩ := exec_parse_decoded_of_eq hj (hsrc ▸ parseUint_canon (le_maxValue_iff.2 hval))
  exact ⟨u, hu, BitVec.eq_of_toNat_eq hd.rval, hd.rok⟩

/-! ### Canonical text, two digits at a time -/

theorem canon_two_digits {v : Nat} (h : 10 ≤ v) (h' : v ≤ 99) : canon v = [lutAt (2 * v), lutAt (2 * v + 1)] := by
  obtain ⟨hten, hone⟩ := lutAt_pair h'
  rw [canon_of_le h, canon_of_lt (by omega), hten, hone]
  rfl

theorem canon_div_hundred {v : Nat} (h : 99 < v) :
    canon v = canon (v / 100) ++ [lutAt (2 * (v % 100)), lutAt (2 * (v % 100) + 1)] := by
  obtain ⟨hten, hone⟩ := lutAt_pair (v := v % 100) (by omega)
  rw [canon_of_le (by omega), canon_of_le (by omega), hten, hone, Nat.div_div_eq_div_mul, List.append_assoc,
    show v % 100 / 10 = v / 10 % 10 by omega, show v % 100 % 10 = v % 10 by omega]
  rfl

theorem nd_div_hundred {v : Nat} (h : 99 < v) : nd v = nd (v / 100) + 2 := by
  rw [nd, canon_div_hundred h, List.length_append]
  rfl

theorem smallText_eq_canon {u : Nat} (h : u ≤ 99) : smallText u = canon u := by
  rw [smallText]
  split
  next hlt => exact (canon_of_lt hlt).symm
  next hge => exact (canon_two_digits (by omega) h).symm

/-! ### The general path -/

section General

variable {w : Width}

/-- One turn of the loop of R117. -/
def encoderTurn (st : EncoderWork w) : EncoderWork w :=
  { putTwo st (st.q.toNat % 100) with q := BitVec.ofNat w.bits (st.q.toNat / 100), turns := st.turns + 1 }

theorem encoderLoop_succ (fuel : Nat) (st : EncoderWork w) :
    encoderLoop (fuel + 1) st = if 99 < st.q.toNat then encoderLoop fuel (encoderTurn st) else st := rfl

@[simp] theorem encoderTurn_q (st : EncoderWork w) : (encoderTurn st).q.toNat = st.q.toNat / 100 := by
  rw [encoderTurn, BitVec.toNat_ofNat, Nat.mod_eq_of_lt]
  exact (Nat.div_le_self _ _).trans_lt st.q.isLt

@[simp] theorem encoderTurn_turns (st : EncoderWork w) : (encoderTurn st).turns = st.turns + 1 := rfl

/-- The state in which the general path starts (R117). -/
def encoderStart (w : Width) (scr : List Byte) (u : Nat) : EncoderWork w :=
  { scr := scr, q := BitVec.ofNat w.bits u, pos := maxDigits w, turns := 0 }

theorem generalRun_eq (scr : List Byte) (u : Nat) : generalRun w scr u = encoderTail (encoderLoop 9 (encoderStart w scr u)) := rfl

theorem encoderStart_q (scr : List Byte) {u : Nat} (h : u < 2 ^ w.bits) : (encoderStart w scr u).q.toNat = u := by
  rw [encoderStart, BitVec.toNat_ofNat, Nat.mod_eq_of_lt h]

/-- Nine turns leave at most two digits of any operand (R120). -/
theorem encoderStart_q_lt (scr : List Byte) {u : Nat} (h : u < 2 ^ w.bits) : (encoderStart w scr u).q.toNat < 100 ^ 10 := by
  rw [encoderStart_q scr h]
  exact (h.trans_le (two_pow_bits_le w)).trans (by decide)

/-- With turns enough for the value in Q, the loop ends with at most two digits there. -/
theorem encoderLoop_q {fuel : Nat} {st : EncoderWork w} (h : st.q.toNat < 100 ^ (fuel + 1)) :
    (encoderLoop fuel st).q.toNat ≤ 99 := by
  induction fuel generalizing st with
  | zero => exact Nat.le_of_lt_succ h
  | succ fuel ih =>
    rw [encoderLoop_succ]
    split
    next => exact ih (by rw [encoderTurn_q, Nat.div_lt_iff_lt_mul (by decide), ← pow_succ]; exact h)
    next hsmall => exact Nat.le_of_not_lt hsmall

/-- At most two digits need no turn. -/
theorem no_turn_of_le {v : Nat} (h : v ≤ 99) : (nd v - 2 + 1) / 2 = 0 := by
  have := nd_le 1 v (Nat.lt_succ_of_le h)
  omega

/-- With turns enough for the value in Q, the loop takes one for every two digits above the last two (R120). -/
theorem encoderLoop_turns {fuel : Nat} {st : EncoderWork w} (h : st.q.toNat < 100 ^ (fuel + 1)) :
    (encoderLoop fuel st).turns = st.turns + (nd st.q.toNat - 2 + 1) / 2 := by
  induction fuel generalizing st with
  | zero => rw [no_turn_of_le (Nat.le_of_lt_succ h)]; rfl
  | succ fuel ih =>
    rw [encoderLoop_succ]
    split
    next hlarge =>
      have hq : (encoderTurn st).q.toNat < 100 ^ (fuel + 1) := by
        rw [encoderTurn_q, Nat.div_lt_iff_lt_mul (by decide), ← pow_succ]
        exact h
      rw [ih hq, encoderTurn_turns, encoderTurn_q, nd_div_hundred hlarge]
      have := nd_pos (st.q.toNat / 100)
      omega
    next hle => rw [no_turn_of_le (Nat.le_of_not_lt hle)]; rfl

/-- The working state of the general path on its way to the text of `u`: the digits of Q, then those in SCR from POS on, are the
text, and there is room below POS for the digits of Q. -/
structure EncoderWork.Holds (st : EncoderWork w) (u : Nat) : Prop where
  size : st.scr.length = maxDigits w
  fits : st.pos ≤ maxDigits w
  room : nd st.q.toNat ≤ st.pos
  text : canon st.q.toNat ++ st.scr.drop st.pos = canon u

theorem encoderStart_holds {scr : List Byte} {u : Nat} (hscr : scr.length = maxDigits w) (hu : u < 2 ^ w.bits) :
    (encoderStart w scr u).Holds u where
  size := hscr
  fits := le_refl _
  room := by rw [encoderStart_q scr hu]; exact nd_le_maxDigits hu
  text := by rw [encoderStart_q scr hu]; simp [encoderStart, ← hscr]

/-- One turn moves two digits from Q to SCR. -/
theorem EncoderWork.Holds.turn {st : EncoderWork w} {u : Nat} (h : st.Holds u) (hq : 99 < st.q.toNat) :
    (encoderTurn st).Holds u := by
  obtain ⟨hsize, hfits, hroom, htext⟩ := h
  have hnd := nd_div_hundred hq
  refine ⟨?_, ?_, ?_, ?_⟩
  · simp [encoderTurn, putTwo, hsize]
  · exact (Nat.sub_le _ _).trans hfits
  · rw [encoderTurn_q]
    exact Nat.le_sub_of_add_le (hnd ▸ hroom)
  · rw [encoderTurn_q, ← htext, canon_div_hundred hq, List.append_assoc]
    exact congrArg _ (drop_of_putTwo _ _ _ _ (by omega) (hsize ▸ hfits))

theorem EncoderWork.Holds.loop {fuel : Nat} {st : EncoderWork w} {u : Nat} (h : st.Holds u) : (encoderLoop fuel st).Holds u := by
  induction fuel generalizing st with
  | zero => exact h
  | succ fuel ih =>
    rw [encoderLoop_succ]
    split
    next hq => exact ih (h.turn hq)
    next => exact h

/-- The last step leaves the whole text in SCR from POS on (R117). -/
theorem EncoderWork.Holds.tail {st : EncoderWork w} {u : Nat} (h : st.Holds u) (hq : st.q.toNat ≤ 99) :
    (encoderTail st).scr.length = maxDigits w ∧ (encoderTail st).scr.drop (encoderTail st).pos = canon u := by
  obtain ⟨hsize, hfits, hroom, htext⟩ := h
  rw [encoderTail, ← htext]
  split
  next hlt =>
    have hone := canon_of_lt hlt
    rw [nd, hone] at hroom
    exact ⟨by simp [putOne, hsize], hone ▸ drop_of_putOne _ _ _ hroom (hsize ▸ hfits)⟩
  next hge =>
    have htwo := canon_two_digits (Nat.le_of_not_lt hge) hq
    rw [nd, htwo] at hroom
    exact ⟨by simp [putTwo, hsize], htwo ▸ drop_of_putTwo _ _ _ _ hroom (hsize ▸ hfits)⟩

theorem generalText_eq_canon {scr : List Byte} {u : Nat} (hscr : scr.length = maxDigits w) (hu : u < 2 ^ w.bits) :
    generalText w scr u = canon u := by
  obtain ⟨hsize, htext⟩ := (encoderStart_holds hscr hu).loop.tail (encoderLoop_q (encoderStart_q_lt scr hu))
  rw [generalText, generalRun_eq, ← hsize, List.take_length, htext]

theorem generalRun_turns (scr : List Byte) {u : Nat} (hu : u < 2 ^ w.bits) :
    (generalRun w scr u).turns = (nd u - 2 + 1) / 2 := by
  rw [generalRun_eq, encoderTail_turns, encoderLoop_turns (encoderStart_q_lt scr hu), encoderStart_q scr hu]
  exact Nat.zero_add _

theorem generalRun_turns_maxValue (w : Width) (scr : List Byte) :
    (generalRun w scr (maxValue w)).turns = (maxDigits w - 2 + 1) / 2 := by
  rw [generalRun_turns scr (le_maxValue_iff.1 (le_refl _)), ← maxDigits_eq]

end General

/-- Settles O25: both paths write the canonical text. -/
theorem encoderDatapathRefines : Obligations.EncoderDatapathRefines := by
  intro w scr dlen u hscr hu
  rw [copyRef, copyText]
  split
  next hzero => rw [hzero, List.take_zero]
  next =>
    split
    next hsmall => rw [smallText_eq_canon hsmall]
    next => rw [generalText_eq_canon hscr hu]

/-! ### The work bounds -/

/-- The run of the reference decoder reads each byte at most once, none of a too long text, and does at most one multiply-add a
byte (R103, R166). -/
theorem parseRefRun_work (w : Width) (text : List Byte) :
    (parseRefRun w text).2.reads ≤ min text.length (maxDigits w) ∧ (parseRefRun w text).2.multiplyAdds ≤ maxDigits w := by
  have hpos := maxDigits_pos w
  obtain rfl | ⟨b, rfl⟩ | ⟨hone, hlen⟩ | ⟨front, last, rfl, hlen⟩ | hlong := text_cases w text
  · simp
  · simp
    omega
  · obtain ⟨hreads, hadds⟩ := accLoop_work (.start w) text
    rw [DecoderWork.start_reads] at hreads
    rw [DecoderWork.start_multiplyAdds] at hadds
    rw [parseRefRun_short hone hlen]
    dsimp only
    omega
  · obtain ⟨hreads, hadds⟩ := accLoop_work (.start w) front
    obtain ⟨hlast, hlastAdd⟩ := lastDigitStep_work (accLoop (.start w) front).2 last
    rw [DecoderWork.start_reads] at hreads
    rw [DecoderWork.start_multiplyAdds] at hadds
    rw [parseRefRun_full last hlen, List.length_append, List.length_singleton]
    split
    next => exact ⟨by dsimp only; omega, by dsimp only; omega⟩
    next => omega
  · rw [parseRefRun_long hlong]
    simp

theorem length_smallText_le (u : Nat) : (smallText u).length ≤ 2 := by
  rw [smallText]
  split
  next => exact Nat.le_succ 1
  next => exact Nat.le_refl 2

theorem length_copyRef_le (w : Width) (scr : List Byte) (dlen u : Nat) : (copyRef w scr dlen u).length ≤ maxDigits w := by
  rw [copyRef]
  split
  next => exact Nat.zero_le _
  next =>
    refine (List.length_take_le' _ _).trans ?_
    split
    next => exact (length_smallText_le u).trans (maxDigits_pos w)
    next => simp [generalText]

/-- Settles O28: the decoder's work by the length of the text, and the encoder's by the number of digits. -/
theorem datapathWorkBounded : Obligations.DatapathWorkBounded := by
  refine ⟨fun w text => ?_, fun w scr u hu _ => generalRun_turns scr hu, fun scr => ?_, length_copyRef_le⟩
  · obtain ⟨hreads, hadds⟩ := parseRefRun_work w text
    exact ⟨rfl, hreads, hadds, fun hlong => by rw [parseRefRun_long hlong, DecoderWork.start_reads]⟩
  · exact ⟨generalRun_turns_maxValue .w8 scr, generalRun_turns_maxValue .w16 scr, generalRun_turns_maxValue .w32 scr,
      generalRun_turns_maxValue .w64 scr⟩

end Sys2Proof.Machine
end

section
/-! SUPPORT. Transactions and their traces: the fault list and host memory over one step, and the ways a transaction comes to its
turn (spec 20_memory.md R49 and R56, 60_exceptions.md R129 and R139, 70_reset_and_hazards.md R165). -/

namespace Sys2Proof.Machine

/-! ### Every command and every turn ends -/

/-- Settles O29: each family's command is one total operation. -/
theorem everyCommandEnds : Obligations.EveryCommandEnds := exec_next

/-- Settles O32: the turn is the transaction of its instance, which performs the decoded command. -/
theorem stepRunsDecodedCommand : Obligations.StepRunsDecodedCommand := by
  intro s u k i hturn hd _
  rw [hturn.step_eq, transactionOutcome_legal (by rwa [hturn.inst_eq])]

/-- A turn ends its transaction with the frame of R130. -/
theorem State.Turn.ends {s u : State} {k : Nat} (h : s.Turn k u) :
    ∃ t, step s = .next t ∧ (u.withCur k).TransactionFrame t := by
  obtain ⟨t, ht, hframe, _⟩ := transactionOutcome_cases k u
  exact ⟨t, h.step_eq.trans ht, hframe⟩

theorem State.TransactionFrame.script_eq {s t : State} (h : s.TransactionFrame t) : t.script = s.script := by
  obtain ⟨_, _, _, _, _, _, hscript, _⟩ := h
  exact hscript

/-- Settles O41: the waiting request is one of the ways a turn comes. -/
theorem busyInstanceEndsFirst : Obligations.BusyInstanceEndsFirst := by
  intro s k r es hs hb
  have hturn : s.Turn k s := ⟨hb, .inr (.inl ⟨r, es, hs, rfl⟩)⟩
  obtain ⟨t, ht, hframe⟩ := hturn.ends
  obtain ⟨hbusy, _, hrvalid, hci, hother⟩ := hframe.inst_eq
  exact ⟨t, ht, hframe, hframe.script_eq.trans hs, hbusy, hrvalid, hci, hother⟩

/-- Settles O42: with no event left, the first instance in progress has its turn. -/
theorem transactionsEndUnaided : Obligations.TransactionsEndUnaided := by
  intro s hs
  refine ⟨fun ⟨j, hj⟩ => ?_, fun hidle => ?_⟩
  · cases hf : s.firstBusy with
    | none =>
      rw [(State.firstBusy_eq_none s).1 hf j] at hj
      cases hj
    | some k =>
      have hb := State.busy_of_firstBusy hf
      have hturn : s.Turn k s := ⟨hb, .inr (.inr ⟨hs, hf, rfl⟩)⟩
      obtain ⟨t, ht, hframe⟩ := hturn.ends
      obtain ⟨hbusy, _, _, hci, hother⟩ := hframe.inst_eq
      exact ⟨t, k, ht, hb, hbusy, hci, hother, hframe, fun hw i hi => State.idle_of_lt_firstBusy hw hf hi⟩
  · rw [step_eq, hs, (State.firstBusy_eq_none s).2 hidle]

/-! ### Host reads of a response register -/

theorem step_readReg {s : State} {k : Nat} {reg : RespReg} {es : List Event} (hs : s.script = .readReg k reg :: es) :
    step s = hostReadReg k reg (s.withScript es) := by
  rw [step_eq, hs]

/-- Before the first response, the read is recorded and returns no value (R138, R139). -/
theorem hostReadReg_before {k : Nat} {s : State} (reg : RespReg) (hk : Config.hasInstance k = true)
    (hv : (s.inst k).rvalid = false) : hostReadReg k reg s =
      .next ((s.recordFault k (.readBeforeResponse reg) (s.inst k).ci).withReadout .nothing) := by
  simp [hostReadReg, hk, hv]

/-- After it, the read returns the register, unless it finds the reserved code in STATUS (R164, I10). -/
theorem hostReadReg_after {k : Nat} {s : State} (reg : RespReg) (hk : Config.hasInstance k = true)
    (hv : (s.inst k).rvalid = true) : hostReadReg k reg s =
      if reg = .status ∧ (s.inst k).resp.status = 0b11#2 then .fault .reservedStatus
      else .next (s.withReadout (.reg ((s.inst k).resp.read reg))) := by
  simp [hostReadReg, hk, hv]

/-- A read that answers a next state with another fault list came before the first response. -/
theorem rvalid_of_hostReadReg {k : Nat} {reg : RespReg} {s t : State} (h : hostReadReg k reg s = .next t)
    (hf : t.faults ≠ s.faults) : (s.inst k).rvalid = false := by
  by_contra hv
  unfold hostReadReg at h
  split_ifs at h
  obtain rfl := Host.Outcome.next.inj h
  exact hf rfl

/-! ### The fault list -/

/-- A transaction leaves the fault list as it is, or adds one hardware fault with its instance and CI (R139). -/
theorem transactionOutcome_faults {k : Nat} {s t : State} (h : transactionOutcome k s = .next t) :
    t.faults = s.faults ∨ ∃ f, t.faults = s.faults ++ [{ inst := k, event := .hw f, ci := (s.inst k).ci }] := by
  obtain ⟨u, hu, _, ⟨v, ok, c, bs, rfl, _⟩ | rfl | rfl⟩ := transactionOutcome_cases k s
  all_goals obtain rfl := Host.Outcome.next.inj (hu.symm.trans h)
  · exact .inl rfl
  · exact .inr ⟨_, rfl⟩
  · exact .inr ⟨_, rfl⟩

/-- The transaction of an instance leaves it idle. -/
theorem transactionOutcome_idle {k : Nat} {s t : State} (h : transactionOutcome k s = .next t) : (t.inst k).busy = false := by
  obtain ⟨r, hr⟩ := transactionOutcome_inst h k
  rw [hr, if_pos rfl, Inst.ended_busy]

/-- Settles O37: only the end of a transaction and a read before the first response write the fault list. -/
theorem faultListOnlyGrows : Obligations.FaultListOnlyGrows := by
  intro s t h
  obtain ⟨k, u, es, hb, _, hu, rfl⟩ | ⟨k, r, es, _, _, _, _, rfl⟩ | ⟨k, es, _, hk, hr⟩ | ⟨a, bs, es, _, rfl⟩ |
    ⟨k, reg, es, hs, rfl⟩ | ⟨es, r, _, rfl | rfl | rfl⟩ := step_cases h
  · obtain hf | ⟨f, hf⟩ := transactionOutcome_faults hu
    · exact .inl hf
    · exact .inr ⟨_, hf, rfl, hb, transactionOutcome_idle hu⟩
  · exact .inl rfl
  · obtain rfl := Host.Outcome.next.inj ((hostReset_eq hk).symm.trans hr)
    exact .inl rfl
  · exact .inl rfl
  · rw [step_readReg hs] at h
    have hv : (s.inst k).rvalid = false := rvalid_of_hostReadReg (s := s.withScript es) h (by simp)
    exact .inr ⟨_, rfl, rfl, hv, rfl⟩
  · exact .inl rfl
  · exact .inl rfl
  · exact .inl rfl

/-! ### Host memory -/

/-- A byte that a write changed is one of the written ones. -/
theorem Memory.mem_range_of_read_writeBytes_ne {m : List Host.Cell} {a b : Nat} {bs : List Byte}
    (h : Memory.read (Memory.writeBytes m a bs) b ≠ Memory.read m b) : a ≤ b ∧ b < a + bs.length := by
  by_contra hout
  exact h (Memory.read_writeBytes_outside hout)

/-- A byte that a transaction changed is one of those a COPY with a legal operand writes (R49, R50). -/
theorem transactionOutcome_byte_ne {k a : Nat} {s t : State} (h : transactionOutcome k s = .next t) (ha : t.byte a ≠ s.byte a) :
    ∃ i w, decode (s.inst k).req.cmd = .ok i ∧ (i, w) ∈ copyCommands ∧ (s.inst k).req.val.toNat < 2 ^ w.bits ∧
      (s.inst k).req.dst.base ≤ a ∧
      a < (s.inst k).req.dst.base + min (s.inst k).req.dst.len (nd (s.inst k).req.val.toNat) := by
  obtain ⟨u, hu, _, ⟨v, ok, c, bs, rfl, _, hbs⟩ | rfl | rfl⟩ := transactionOutcome_cases k s
  all_goals obtain rfl := Host.Outcome.next.inj (hu.symm.trans h)
  · obtain ⟨hle, hlt⟩ := Memory.mem_range_of_read_writeBytes_ne ha
    obtain rfl | ⟨i, w, hd, hi, hval, hlen⟩ := hbs
    · simp at hlt
      omega
    · exact ⟨i, w, hd, hi, hval, hle, hlen ▸ hlt⟩
  · exact absurd rfl ha
  · exact absurd rfl ha

/-- Only a COPY in progress with a legal operand leaves bytes open to a reset (R154). -/
theorem copy_of_openBytes_ne_zero {x : Inst} (h : openBytes x ≠ 0) :
    x.busy = true ∧ ∃ w, decode x.req.cmd = .ok (copyOf w) ∧ x.req.val.toNat < 2 ^ w.bits := by
  have hcopy : ¬ (x.busy = false ∨ ∀ w, decode x.req.cmd ≠ .ok (copyOf w)) := fun hidle => h (openBytes_eq_zero hidle)
  simp only [not_or, not_forall, not_not, Bool.not_eq_false] at hcopy
  obtain ⟨hb, w, hd⟩ := hcopy
  refine ⟨hb, w, hd, ?_⟩
  by_contra hval
  exact h (by simp [openBytes, hb, hd, hval])

/-- A byte that a reset changed is one of those the interrupted COPY leaves open (R154). -/
theorem afterReset_byte_ne {k a : Nat} {s : State} (ha : (afterReset k s).byte a ≠ s.byte a) :
    (s.inst k).busy = true ∧ ∃ w, decode (s.inst k).req.cmd = .ok (copyOf w) ∧ (s.inst k).req.val.toNat < 2 ^ w.bits ∧
      (s.inst k).req.dst.base ≤ a ∧ a < (s.inst k).req.dst.base + min (s.inst k).req.dst.len (maxDigits w) := by
  obtain ⟨hle, hlt⟩ := Memory.mem_range_of_read_writeBytes_ne ha
  rw [length_drawBytes] at hlt
  obtain ⟨hb, w, hd, hval⟩ := copy_of_openBytes_ne_zero (x := s.inst k) (by omega)
  exact ⟨hb, w, hd, hval, hle, openBytes_copy hb hd hval ▸ hlt⟩

/-- Settles O38: the bytes each kind of step can change. -/
theorem whoWritesMemory : Obligations.WhoWritesMemory := by
  intro s t a h ha
  obtain ⟨k, u, es, hb, _, hu, rfl⟩ | ⟨k, r, es, _, _, _, _, rfl⟩ | ⟨k, es, hs, hk, hr⟩ | ⟨b, bs, es, hs, rfl⟩ |
    ⟨k, reg, es, _, rfl⟩ | ⟨es, r, _, rfl | rfl | rfl⟩ := step_cases h
  · obtain ⟨i, w, hd, hi, hval, hle, hlt⟩ := transactionOutcome_byte_ne hu ha
    exact .inl ⟨k, i, w, hb, transactionOutcome_idle hu, hd, hi, hval, hle, .inl hlt⟩
  · exact absurd rfl ha
  · obtain rfl := Host.Outcome.next.inj ((hostReset_eq hk).symm.trans hr)
    obtain ⟨hb, w, hd, hval, hle, hlt⟩ := afterReset_byte_ne ha
    exact .inl ⟨k, copyOf w, w, hb, by simp, hd, copyOf_mem w, hval, hle, .inr ⟨⟨es, hs⟩, hlt⟩⟩
  · exact .inr ⟨b, bs, es, hs, Memory.mem_range_of_read_writeBytes_ne ha⟩
  · exact absurd rfl ha
  · exact absurd rfl ha
  · exact absurd rfl ha
  · exact absurd rfl ha

end Sys2Proof.Machine
end

section
/-! SUPPORT. The host's interactions and reset: launches, register reads, and reads and writes of host memory (spec
70_reset_and_hazards.md R154 and R160 to R164). -/

namespace Sys2Proof.Machine

/-! ### Launches -/

theorem step_issue {s : State} {k : Nat} {r : Request} {es : List Event} (hs : s.script = .issue k r :: es)
    (hb : (s.inst k).busy = false) : step s = hostIssue k r (s.withScript es) := by
  rw [step_eq, hs]
  simp [hb]

/-- A launch that conflicts with nothing in progress elsewhere is latched (R27, R161). -/
theorem hostIssue_latches {k : Nat} {r : Request} {s : State} (hk : Config.hasInstance k = true)
    (hc : ∀ j, j ≠ k → (s.inst j).busy = true → r.conflicts (s.inst j).req = false) :
    hostIssue k r s = .next (s.withInst k ((s.inst k).latched r)) := by
  have hfree := (State.issueConflicts_eq_false_iff s k r).2 hc
  simp [hostIssue, hk, hfree]

/-- A launch that conflicts with a transaction in progress elsewhere is refused (R161). -/
theorem hostIssue_refused {k j : Nat} {r : Request} {s : State} (hk : Config.hasInstance k = true) (hj : j ≠ k)
    (hb : (s.inst j).busy = true) (hc : r.conflicts (s.inst j).req = true) :
    hostIssue k r s = .refused .overlappingBuffers := by
  have hused := (State.issueConflicts_iff s k r).2 ⟨j, hj, hb, hc⟩
  simp [hostIssue, hk, hused]

/-- Settles O39: the state with the request latched, field by field. -/
theorem issueLatchesRequest : Obligations.IssueLatchesRequest := by
  intro s k r es hs hk hb hc
  refine ⟨_, (step_issue hs hb).trans (hostIssue_latches (s := s.withScript es) hk hc), ?_, ?_, ?_, ?_, ?_, fun j hj => ?_,
    fun _ => rfl, rfl, rfl, rfl, rfl, rfl⟩
  · rw [State.withInst_inst, if_pos rfl, Inst.latched_busy]
  · rw [State.withInst_inst, if_pos rfl, Inst.latched_req]
  · rw [State.withInst_inst, if_pos rfl, Inst.latched_resp, State.withScript_inst]
  · rw [State.withInst_inst, if_pos rfl, Inst.latched_rvalid, State.withScript_inst]
  · rw [State.withInst_inst, if_pos rfl, Inst.latched_ci, State.withScript_inst]
  · rw [State.withInst_inst, if_neg hj, State.withScript_inst]

/-- A command that reads SRC writes no DST (R70). -/
theorem writesDst_of_readsSrc {i : Instr} (h : i.readsSrc = true) : i.writesDst = false := by
  obtain ⟨w, rfl⟩ | ⟨w, rfl⟩ | rfl := i.cases_family
  · exact parseOf_writesDst w
  · rw [copyOf_readsSrc] at h
    cases h
  · rfl

/-- A command that reads SRC uses no byte of DST (R48, R70). -/
theorem Request.usedDst_of_reads {r : Request} {i : Instr} (h : decode r.cmd = .ok i) (hi : i.readsSrc = true) :
    r.usedDst = Slice.empty := by
  simp [Request.usedDst, h, writesDst_of_readsSrc hi]

@[simp] theorem Slice.empty_overlaps (x : Slice) : Slice.empty.overlaps x = false := by
  simp [Slice.overlaps, Slice.empty]

@[simp] theorem Slice.overlaps_empty (x : Slice) : x.overlaps Slice.empty = false := by
  rw [Slice.overlaps_comm, Slice.empty_overlaps]

/-- Requests that use no byte of DST do not conflict (R161). -/
theorem Request.conflicts_of_no_dst {r q : Request} (hr : r.usedDst = Slice.empty) (hq : q.usedDst = Slice.empty) :
    r.conflicts q = false := by
  simp [Request.conflicts, hr, hq]

/-- Settles O40: each of the three shared bytes is an overlap of used buffers, and two PARSE commands use no DST. -/
theorem overlappingLaunchRefused : Obligations.OverlappingLaunchRefused := by
  intro s k j r es c d a hs hk hb hj hbj hc hd
  refine ⟨fun hshared => ?_, fun hcr hdr hidle => ?_⟩
  · have hconflict : r.conflicts (s.inst j).req = true := by
      simp only [Request.conflicts, Bool.or_eq_true]
      obtain ⟨hcw, hdw, h1, h2, h3, h4⟩ | ⟨hcw, hdr, h1, h2, h3, h4⟩ | ⟨hcr, hdw, h1, h2, h3, h4⟩ := hshared
      · rw [Request.usedDst_of_writes hc hcw, Request.usedDst_of_writes hd hdw]
        exact .inl (.inl (Slice.overlaps_of_mem _ _ a h1 h2 h3 h4))
      · rw [Request.usedDst_of_writes hc hcw, Request.usedSrc_of_reads hd hdr]
        exact .inl (.inr (Slice.overlaps_of_mem _ _ a h1 h2 h3 h4))
      · rw [Request.usedSrc_of_reads hc hcr, Request.usedDst_of_writes hd hdw]
        exact .inr (Slice.overlaps_of_mem _ _ a h1 h2 h3 h4)
    exact (step_issue hs hb).trans (hostIssue_refused (s := s.withScript es) hk hj hbj hconflict)
  · have hfree : ∀ m, m ≠ k → ((s.withScript es).inst m).busy = true →
        r.conflicts ((s.withScript es).inst m).req = false := by
      intro m hm hbm
      by_cases hmj : m = j
      · subst hmj
        exact Request.conflicts_of_no_dst (Request.usedDst_of_reads hc hcr) (Request.usedDst_of_reads hd hdr)
      · rw [State.withScript_inst, hidle m hm hmj] at hbm
        cases hbm
    exact ⟨_, (step_issue hs hb).trans (hostIssue_latches hk hfree), by simp⟩

/-! ### Register reads -/

/-- Settles O43: the record, with no value and nothing else changed. -/
theorem readBeforeResponseRecorded : Obligations.ReadBeforeResponseRecorded := by
  intro s k reg es hs hk hv
  exact ⟨_, (step_readReg hs).trans (hostReadReg_before (s := s.withScript es) reg hk hv), rfl, rfl, fun _ => rfl, fun _ => rfl,
    rfl, rfl, rfl⟩

/-- STATUS fits in the 64 bits the host reads (R33). -/
theorem Response.toNat_read_status (r : Response) : (r.read .status).toNat = r.status.toNat :=
  BitVec.toNat_setWidth_of_le (by decide)

/-- ROK is read as 0 or 1 (R34). -/
theorem Response.toNat_read_rok (r : Response) : (r.read .rok).toNat = if r.rok then 1 else 0 := by
  cases h : r.rok <;> simp [Response.read, h]

/-- RCNT fits in the 64 bits the host reads (R35). -/
theorem Response.toNat_read_rcnt (r : Response) : (r.read .rcnt).toNat = r.rcnt.toNat :=
  BitVec.toNat_setWidth_of_le (by decide)

/-- Settles O44: the register's value, or the model's fault on the reserved code. -/
theorem readAfterResponse : Obligations.ReadAfterResponse := by
  intro s k reg es hs hk hv
  have hstep := (step_readReg hs).trans (hostReadReg_after (s := s.withScript es) reg hk hv)
  rw [State.withScript_inst] at hstep
  split
  next hreserved => rw [hstep, if_pos hreserved]
  next hfine =>
    rw [if_neg hfine] at hstep
    refine ⟨_, _, hstep, rfl, ?_, fun _ => rfl, fun _ => rfl, rfl, rfl, rfl, rfl⟩
    cases reg with
    | status => exact Response.toNat_read_status _
    | rval => rfl
    | rok => exact Response.toNat_read_rok _
    | rcnt => exact Response.toNat_read_rcnt _

/-! ### The host's own reads and writes of memory -/

/-- `readForbidden` says what its name says (R160). -/
theorem State.readForbidden_iff (s : State) (buf : Slice) : s.readForbidden buf = true ↔
    ∃ k b, (s.inst k).busy = true ∧ buf.base ≤ b ∧ b < buf.base + buf.len ∧
      (s.inst k).req.usedDst.base ≤ b ∧ b < (s.inst k).req.usedDst.base + (s.inst k).req.usedDst.len := by
  simp only [State.readForbidden, State.anyBusy_iff, Slice.overlaps_iff, and_assoc, exists_and_left]

/-- `writeForbidden` says what its name says (R160). -/
theorem State.writeForbidden_iff (s : State) (buf : Slice) : s.writeForbidden buf = true ↔
    ∃ k b, (s.inst k).busy = true ∧ buf.base ≤ b ∧ b < buf.base + buf.len ∧
      (((s.inst k).req.usedSrc.base ≤ b ∧ b < (s.inst k).req.usedSrc.base + (s.inst k).req.usedSrc.len) ∨
       ((s.inst k).req.usedDst.base ≤ b ∧ b < (s.inst k).req.usedDst.base + (s.inst k).req.usedDst.len)) := by
  simp only [State.writeForbidden, State.anyBusy_iff, Bool.or_eq_true, Slice.overlaps_iff, ← exists_or, ← and_or_left,
    and_assoc, exists_and_left]

theorem step_poke {s : State} {a : Nat} {bs : List Byte} {es : List Event} (hs : s.script = .poke a bs :: es) :
    step s = hostPoke a bs (s.withScript es) := by
  rw [step_eq, hs]

theorem step_peek {s : State} {buf : Slice} {es : List Event} (hs : s.script = .peek buf :: es) :
    step s = hostPeek buf (s.withScript es) := by
  rw [step_eq, hs]

/-- Settles O45: the refusal where a byte is in use, and the written memory otherwise. -/
theorem hostWriteKeepsDuty : Obligations.HostWriteKeepsDuty := by
  intro s a bs es hs
  have hforbidden := State.writeForbidden_iff (s.withScript es) { base := a, len := bs.length }
  refine ⟨fun hused => ?_, fun hfree => ?_⟩
  · exact (step_poke hs).trans (if_pos (hforbidden.2 hused))
  · refine ⟨_, (step_poke hs).trans (if_neg (mt hforbidden.1 hfree)), fun n hn => ?_, fun b hb => ?_, fun _ => rfl, rfl,
      rfl, rfl, rfl, rfl⟩
    · exact Memory.read_writeBytes_inside hn
    · exact Memory.read_writeBytes_outside hb

/-- Settles O46: the refusal where a byte is in use, and the bytes as they stand otherwise. -/
theorem hostReadKeepsDuty : Obligations.HostReadKeepsDuty := by
  intro s buf es hs
  have hforbidden := State.readForbidden_iff (s.withScript es) buf
  refine ⟨fun hused => ?_, fun hfree => ?_⟩
  · exact (step_peek hs).trans (if_pos (hforbidden.2 hused))
  · refine ⟨_, _, (step_peek hs).trans (if_neg (mt hforbidden.1 hfree)), rfl, Memory.length_readSlice _ _, fun n hn => ?_,
      fun _ => rfl, fun _ => rfl, rfl, rfl, rfl, rfl⟩
    exact Memory.getD_readBytes _ _ _ _ hn

/-! ### Reset during a COPY -/

/-- Settles O48: the bytes the interrupted COPY leaves open are the draws, and no other byte is written. -/
theorem resetDuringCopy : Obligations.ResetDuringCopy := by
  intro s k es i w hs hk hb hd hi hval
  rw [eq_copyOf_of_mem hi] at hd
  have hopen := openBytes_copy hb hd hval
  have hmem : ∀ a, (afterReset k (s.withScript es)).byte a = Memory.read (Memory.writeBytes s.mem (s.inst k).req.dst.base
      (drawBytes s.draws (min (s.inst k).req.dst.len (maxDigits w)))) a := fun a => by rw [← hopen]; rfl
  refine ⟨_, step_reset_eq hs hk, ?_, ?_, ?_, fun a ha => ?_, fun n hn => ?_, ?_⟩
  · rw [afterReset_inst, if_pos rfl, Inst.reset_busy]
  · rw [afterReset_inst, if_pos rfl, Inst.reset_rvalid]
  · rw [afterReset_inst, if_pos rfl, Inst.reset_ci]
  · rw [hmem, Memory.read_writeBytes_outside (by rwa [length_drawBytes])]
    rfl
  · rw [hmem, Memory.read_writeBytes_inside (by rwa [length_drawBytes]), getD_drawBytes _ _ _ hn]
  · rw [afterReset_draws, State.withScript_inst, hopen, State.withScript_draws]

end Sys2Proof.Machine
end

section
/-! SUPPORT. Transactions on two instances: what a transaction comes to is a function of its instance's registers and of the SRC
bytes its command reads, so two of them with disjoint buffers end in either order (spec 20_memory.md R57). -/

namespace Sys2Proof.Machine

/-! ### What one transaction comes to -/

/-- What the end of a transaction writes: its response, its DST bytes from the first on, and its records in the fault list. -/
structure Ending where
  resp : Response
  text : List Byte
  records : List FaultRecord

/-- `t` is `s` after the transaction of instance `k` has come to `e`: its registers, DST bytes and records are written, and no
event is taken. -/
structure State.EndsWith (s t : State) (k : Nat) (e : Ending) : Prop where
  inst : ∀ m, t.inst m = if m = k then (s.inst k).ended e.resp else s.inst m
  mem : t.mem = Memory.writeBytes s.mem (s.inst k).req.dst.base e.text
  faults : t.faults = s.faults ++ e.records
  script : t.script = s.script

/-- In every state in which instance `k` has the registers `x`, and the SRC bytes its command reads are `src`, the transaction of
`k` comes to `e`. -/
def Ending.Of (e : Ending) (k : Nat) (x : Inst) (src : List Byte) : Prop :=
  ∀ s : State, s.inst k = x → Memory.readSlice s.mem x.req.usedSrc = src →
    ∃ t, transactionOutcome k s = .next t ∧ s.EndsWith t k e

/-- The text lies in the DST bytes that the command may write. -/
def Ending.Fits (e : Ending) (r : Request) : Prop :=
  ∀ a, r.dst.base ≤ a → a < r.dst.base + e.text.length → r.usedDst.base ≤ a ∧ a < r.usedDst.base + r.usedDst.len

theorem Ending.fits_of_nil {e : Ending} (h : e.text = []) (r : Request) : e.Fits r := by
  intro a hle hlt
  rw [h, List.length_nil] at hlt
  omega

/-- The end of a transaction with a DONE response. -/
theorem endTransaction_endsWith (k : Nat) (s : State) (r : Response) (text : List Byte) :
    s.EndsWith (((s.withCur k).withMem (Memory.writeBytes s.mem (s.inst k).req.dst.base text)).endTransaction r) k
      { resp := r, text := text, records := [] } where
  inst := State.endTransaction_inst _ r
  mem := rfl
  faults := (List.append_nil _).symm
  script := rfl

/-- The end of a transaction with a fault. -/
theorem takeFault_endsWith (k : Nat) (s : State) (f : HwFault) :
    s.EndsWith ((s.withCur k).takeFault f) k
      { resp := faultResponse f, text := [], records := [{ inst := k, event := .hw f, ci := (s.inst k).ci }] } where
  inst := State.takeFault_inst _ f
  mem := rfl
  faults := rfl
  script := rfl

/-- A transaction whose outcome in every state with these registers is the fault `f`. -/
theorem Ending.exists_of_fault {k : Nat} {x : Inst} (src : List Byte) (f : HwFault)
    (h : ∀ s : State, s.inst k = x → transactionOutcome k s = .next ((s.withCur k).takeFault f)) :
    ∃ e : Ending, e.Of k x src ∧ e.Fits x.req :=
  ⟨{ resp := faultResponse f, text := [], records := [{ inst := k, event := .hw f, ci := x.ci }] },
    fun s hx _ => ⟨_, h s hx, hx ▸ takeFault_endsWith k s f⟩, Ending.fits_of_nil rfl _⟩

/-- A transaction that ends DONE, with a response and a text that its registers and its SRC bytes determine. -/
theorem Ending.exists_of_done {k : Nat} {x : Inst} {src : List Byte} (r : Response) (text : List Byte)
    (hfits : Ending.Fits { resp := r, text := text, records := [] } x.req)
    (h : ∀ s : State, s.inst k = x → Memory.readSlice s.mem x.req.usedSrc = src → transactionOutcome k s =
      .next (((s.withCur k).withMem (Memory.writeBytes s.mem x.req.dst.base text)).endTransaction r)) :
    ∃ e : Ending, e.Of k x src ∧ e.Fits x.req :=
  ⟨{ resp := r, text := text, records := [] },
    fun s hx hsrc => ⟨_, h s hx hsrc, hx ▸ endTransaction_endsWith k s r text⟩, hfits⟩

/-- What a transaction comes to depends on its instance's registers and its SRC bytes alone (R57, R70). -/
theorem exists_ending (k : Nat) (x : Inst) (src : List Byte) : ∃ e : Ending, e.Of k x src ∧ e.Fits x.req := by
  cases hd : decode x.req.cmd with
  | error why => exact Ending.exists_of_fault src _ fun s hx => hx ▸ transactionOutcome_illegal (hx ▸ hd)
  | ok i =>
    have hexec : ∀ s : State, s.inst k = x → transactionOutcome k s = exec i (s.withCur k) :=
      fun s hx => transactionOutcome_legal (hx ▸ hd)
    have hactive : ∀ s : State, s.inst k = x → (s.withCur k).active = x := fun _ hx => hx
    obtain ⟨w, rfl⟩ | ⟨w, rfl⟩ | rfl := i.cases_family
    · refine Ending.exists_of_done (doneResponse (parseUint w src).1 (parseUint w src).2 0) [] (Ending.fits_of_nil rfl _)
        fun s hx hsrc => ?_
      rw [Request.usedSrc_of_reads hd (parseOf_readsSrc w)] at hsrc
      rw [hexec s hx, exec_parseOf, parseTransaction, srcOperand, hactive s hx, State.withCur_mem, hsrc]
      rfl
    · rcases Nat.lt_or_ge x.req.val.toNat (2 ^ w.bits) with hval | hval
      · refine Ending.exists_of_done (doneResponse 0 true (copyText x.req.dst.len x.req.val.toNat).length)
          (copyText x.req.dst.len x.req.val.toNat) (fun a hle hlt => ?_) fun s hx _ => ?_
        · rw [Request.usedDst_of_writes hd (copyOf_writesDst w)]
          rw [length_copyText] at hlt
          omega
        · rw [hexec s hx, exec_copyOf, copyTransaction_of_lt (by rwa [hactive s hx]), hactive s hx, State.withCur_mem]
      · refine Ending.exists_of_fault src (.illegalOperand x.req.val) fun s hx => ?_
        rw [hexec s hx, exec_copyOf, copyTransaction_of_le (by rwa [hactive s hx]), hactive s hx]
    · rcases Nat.lt_or_ge x.req.val.toNat 256 with hval | hval
      · refine Ending.exists_of_done (doneResponse (parseDigit (x.req.val.extractLsb' 0 8)).1
          (parseDigit (x.req.val.extractLsb' 0 8)).2 0) [] (Ending.fits_of_nil rfl _) fun s hx _ => ?_
        rw [hexec s hx, exec_digit, digitTransaction_of_lt (by rwa [hactive s hx]), hactive s hx]
        rfl
      · refine Ending.exists_of_fault src (.illegalOperand x.req.val) fun s hx => ?_
        rw [hexec s hx, exec_digit, digitTransaction_of_le (by rwa [hactive s hx]), hactive s hx]

/-! ### Disjoint buffers -/

/-- Buffers that do not overlap share no byte. -/
theorem Slice.not_mem_of_not_overlaps {x y : Slice} (h : x.overlaps y = false) {a : Nat}
    (hx : x.base ≤ a ∧ a < x.base + x.len) : ¬ (y.base ≤ a ∧ a < y.base + y.len) := fun hy => by
  rw [(Slice.overlaps_iff x y).2 ⟨a, hx, hy⟩] at h
  cases h

theorem Request.conflicts_eq_false_iff (r q : Request) : r.conflicts q = false ↔
    r.usedDst.overlaps q.usedDst = false ∧ r.usedDst.overlaps q.usedSrc = false ∧ r.usedSrc.overlaps q.usedDst = false := by
  simp only [Request.conflicts, Bool.or_eq_false_iff, and_assoc]

/-- The text of a transaction leaves the bytes of a buffer that does not overlap its DST. -/
theorem Ending.Fits.readSlice_eq {e : Ending} {r : Request} (h : e.Fits r) {b : Slice} (hb : r.usedDst.overlaps b = false)
    (m : List Host.Cell) : Memory.readSlice (Memory.writeBytes m r.dst.base e.text) b = Memory.readSlice m b := by
  refine Memory.readBytes_congr _ _ fun a hle hlt => Memory.read_writeBytes_outside fun hin => ?_
  exact Slice.not_mem_of_not_overlaps hb (h a hin.1 hin.2) ⟨hle, hlt⟩

/-- Two texts in disjoint buffers may be written in either order. -/
theorem Ending.Fits.writeBytes_comm {e f : Ending} {r q : Request} (he : e.Fits r) (hf : f.Fits q)
    (hrq : r.usedDst.overlaps q.usedDst = false) (m : List Host.Cell) (a : Nat) :
    Memory.read (Memory.writeBytes (Memory.writeBytes m r.dst.base e.text) q.dst.base f.text) a =
      Memory.read (Memory.writeBytes (Memory.writeBytes m q.dst.base f.text) r.dst.base e.text) a := by
  simp only [Memory.read_writeBytes]
  split_ifs with hq hr
  · exact absurd (hf a hq.1 hq.2) (Slice.not_mem_of_not_overlaps hrq (he a hr.1 hr.2))
  · rfl
  · rfl
  · rfl

/-! ### Two transactions, one after the other -/

theorem core_run_two {s t u : State} (hs : step s = .next t) (ht : step t = .next u) : core.run 2 s = .next u := by
  rw [core_run_succ, hs]
  dsimp only
  rw [core_run_succ, ht]
  rfl

/-- Running `j` and then `k`, whose SRC the first does not write, gives both endings, `j`'s first. -/
theorem run_both {s : State} {j k : Nat} {es : List Event} {e f : Ending} (hjk : j ≠ k) (hbj : (s.inst j).busy = true)
    (hbk : (s.inst k).busy = true)
    (he : e.Of j (s.inst j) (Memory.readSlice s.mem (s.inst j).req.usedSrc)) (hfits : e.Fits (s.inst j).req)
    (hf : f.Of k (s.inst k) (Memory.readSlice s.mem (s.inst k).req.usedSrc))
    (hdisjoint : (s.inst j).req.usedDst.overlaps (s.inst k).req.usedSrc = false) :
    ∃ t, core.run 2 (s.withScript (.run j :: .run k :: es)) = .next t ∧
      (∀ m, State.inst t m = if m = k then (s.inst k).ended f.resp else if m = j then (s.inst j).ended e.resp else s.inst m) ∧
      State.mem t = Memory.writeBytes (Memory.writeBytes s.mem (s.inst j).req.dst.base e.text) (s.inst k).req.dst.base f.text ∧
      State.faults t = s.faults ++ e.records ++ f.records := by
  obtain ⟨t, ht, htinst, htmem, htfaults, htscript⟩ := he (s.withScript (.run k :: es)) rfl rfl
  rw [State.withScript_inst, State.withScript_mem] at htmem
  have hk : t.inst k = s.inst k := by rw [htinst, if_neg hjk.symm, State.withScript_inst]
  have hsrc : Memory.readSlice t.mem (s.inst k).req.usedSrc = Memory.readSlice s.mem (s.inst k).req.usedSrc := by
    rw [htmem, hfits.readSlice_eq hdisjoint]
  obtain ⟨u, hu, huinst, humem, hufaults, _⟩ := hf (t.withScript es) hk hsrc
  rw [State.withScript_inst, State.withScript_mem, hk, htmem] at humem
  have hfirst : step (s.withScript (.run j :: .run k :: es)) = .next t := 
    (step_run (s := s.withScript (.run j :: .run k :: es)) rfl hbj).trans ht
  have hsecond : step t = .next u := (step_run htscript (hk ▸ hbk)).trans hu
  refine ⟨u, core_run_two hfirst hsecond, fun m => ?_, humem, ?_⟩
  · rw [huinst, State.withScript_inst, State.withScript_inst, hk, htinst, State.withScript_inst, State.withScript_inst]
  · rw [hufaults, State.withScript_faults, htfaults, State.withScript_faults]

/-- Settles O49: each transaction comes to the same in either order, and their writes do not meet. -/
theorem instancesCommute : Obligations.InstancesCommute := by
  intro s j k es hjk hbj hbk hc
  obtain ⟨hdd, hds, hsd⟩ := (Request.conflicts_eq_false_iff _ _).1 hc
  rw [Slice.overlaps_comm] at hsd
  obtain ⟨e, he, hefits⟩ := exists_ending j (s.inst j) (Memory.readSlice s.mem (s.inst j).req.usedSrc)
  obtain ⟨f, hf, hffits⟩ := exists_ending k (s.inst k) (Memory.readSlice s.mem (s.inst k).req.usedSrc)
  obtain ⟨t, ht, htinst, htmem, htfaults⟩ := run_both (es := es) hjk hbj hbk he hefits hf hds
  obtain ⟨u, hu, huinst, humem, hufaults⟩ := run_both (es := es) hjk.symm hbk hbj hf hffits he hsd
  refine ⟨t, u, ht, hu, fun m => ?_, fun a => ?_, ?_⟩
  · rw [htinst, huinst]
    by_cases hmk : m = k
    · rw [if_pos hmk, if_neg (hmk ▸ hjk.symm), if_pos hmk]
    · rw [if_neg hmk, if_neg hmk]
  · have hcomm := hefits.writeBytes_comm hffits hdd s.mem a
    rw [← htmem, ← humem] at hcomm
    exact hcomm.symm
  · rw [htfaults, hufaults, List.append_assoc, List.append_assoc]
    exact (List.perm_append_comm).append_left _

end Sys2Proof.Machine
end

section
/-! SUPPORT. The assembler: the request a line stands for, and where the literals of a text lie
(spec 30_encoding.md R76 to R80). -/

namespace Sys2Proof.Machine

/-! ### One line -/

theorem decode_encode_digit : decode (encode .digit) = .ok .digit := by decide

/-- A source operand is given to its command as R77 says. -/
theorem srcOf_sourceGiven (place : Nat → Nat) (lit : Nat) (src : SrcArg) :
    SourceGiven place lit src (literalPoke lit src) (srcOf place lit src) := by
  cases src with
  | literal bytes => exact ⟨rfl, rfl⟩
  | slice b => exact ⟨rfl, rfl⟩

theorem assembleLine_of_wellFormed {l : AsmLine} (place : Nat → Nat) (lit k : Nat) (h : l.wellFormed = true) :
    assembleLine place lit k l = some (literalOf lit l ++ [.issue k (requestOf place lit l)]) := if_pos h

theorem assembleLine_of_not_wellFormed {l : AsmLine} (place : Nat → Nat) (lit k : Nat) (h : l.wellFormed = false) :
    assembleLine place lit k l = none := if_neg (by simp [h])

/-- Settles O53: the literal and the request of each form of line. -/
theorem assemblerEmitsOneCommand : Obligations.AssemblerEmitsOneCommand := by
  intro place lit k l
  refine ⟨assembleLine_of_not_wellFormed place lit k, fun h => ⟨_, _, assembleLine_of_wellFormed place lit k h, ?_⟩⟩
  cases l with
  | parse w src => exact ⟨decode_encode_parse w, rfl, rfl, srcOf_sourceGiven place lit src⟩
  | copy w dst imm =>
    obtain ⟨_, himm⟩ : dst.wellFormed = true ∧ imm < 2 ^ w.bits := by simpa [AsmLine.wellFormed] using h
    exact ⟨decode_encode_copy w, Nat.mod_eq_of_lt (himm.trans_le (two_pow_bits_le w)), himm, rfl, rfl, rfl⟩
  | digit b =>
    have hb : b ≤ 255 := by simpa [AsmLine.wellFormed] using h
    exact ⟨decode_encode_digit, Nat.mod_eq_of_lt (by omega), by omega, rfl, rfl, rfl⟩
  | raw cmd imm src dst =>
    obtain ⟨⟨⟨hcmd, himm⟩, _⟩, _⟩ :
        ((cmd ≤ 255 ∧ imm < 2 ^ 64) ∧ src.wellFormed = true) ∧ dst.wellFormed = true := by
      simpa [AsmLine.wellFormed] using h
    exact ⟨Nat.mod_eq_of_lt (by omega), Nat.mod_eq_of_lt himm, srcOf_sourceGiven place lit src, rfl⟩

/-- Settles O54: the line's tokens, its term and the listing of its request, computed. -/
theorem listingExample : Obligations.ListingExample :=
  ⟨.copy .w32 { buf := 0, lo := 0, hi := 3 } 4294967295, by decide, by decide⟩

/-! ### A text of several lines -/

/-- Of two writes of literals, the second starts at or after the end of the first. -/
def Event.LiteralBefore (e f : Event) : Prop :=
  ∀ a as b bs, e = .poke a as → f = .poke b bs → a + as.length ≤ b

/-- The event is a write of a literal at `lit` or above it, or a request on instance `k`. -/
def Event.PlacedFrom (lit k : Nat) (e : Event) : Prop :=
  (∃ a as, e = .poke a as ∧ lit ≤ a) ∨ ∃ r, e = .issue k r

theorem Event.PlacedFrom.mono {lit lit' k : Nat} {e : Event} (h : e.PlacedFrom lit' k) (hle : lit ≤ lit') :
    e.PlacedFrom lit k := by
  obtain ⟨a, as, rfl, ha⟩ | ⟨r, rfl⟩ := h
  · exact .inl ⟨a, as, rfl, hle.trans ha⟩
  · exact .inr ⟨r, rfl⟩

/-- A line's events are its literal, of the line's literal size, and its request. -/
theorem mem_line_events {lit k : Nat} {l : AsmLine} {r : Request} {e : Event}
    (h : e ∈ literalOf lit l ++ [.issue k r]) :
    (∃ bytes, e = .poke lit bytes ∧ bytes.length = literalSize l) ∨ e = .issue k r := by
  obtain hl | ⟨bytes, hl, hsize⟩ := literalOf_cases lit l
  · rw [hl] at h
    exact .inr (by simpa using h)
  · rw [hl] at h
    obtain rfl | rfl : e = .poke lit bytes ∨ e = .issue k r := by simpa using h
    · exact .inl ⟨bytes, rfl, hsize⟩
    · exact .inr rfl

/-- A line has at most one literal, so its own events are apart. -/
theorem line_events_apart (lit k : Nat) (l : AsmLine) (r : Request) :
    (literalOf lit l ++ [Event.issue k r]).Pairwise Event.LiteralBefore := by
  obtain hl | ⟨bytes, hl, _⟩ := literalOf_cases lit l
  · rw [hl]
    exact List.pairwise_singleton _ _
  · rw [hl]
    exact List.pairwise_pair.2 fun _ _ _ _ _ hissue => by cases hissue

/-- The events of the lines from `lit` on: literals apart from each other, none below `lit`, and requests (R77). -/
theorem assembleLines_placed {place : Nat → Nat} {k : Nat} {lines : List (List Char)} :
    ∀ {lit : Nat} {es : List Event}, assembleLines place k lit lines = some es →
      es.Pairwise Event.LiteralBefore ∧ ∀ e ∈ es, e.PlacedFrom lit k := by
  induction lines with
  | nil =>
    intro lit es h
    obtain rfl := Option.some.inj h
    exact ⟨.nil, fun e he => nomatch he⟩
  | cons cs lines ih =>
    intro lit es h
    cases hl : readLine cs with
    | blank =>
      rw [assembleLines, hl] at h
      exact ih h
    | refused =>
      rw [assembleLines, hl] at h
      cases h
    | command l =>
      obtain ⟨rest, hrest, rfl⟩ := assembleLines_command hl h
      obtain ⟨hapart, hplaced⟩ := ih hrest
      refine ⟨List.pairwise_append.2 ⟨line_events_apart lit k l _, hapart, ?_⟩, fun e he => ?_⟩
      · rintro e he f hf a as b bs rfl rfl
        obtain ⟨bytes, hpoke, hsize⟩ | hissue := mem_line_events he
        · obtain ⟨_, _, hpoke', hle⟩ | ⟨_, hissue⟩ := hplaced _ hf
          · cases hpoke
            cases hpoke'
            omega
          · cases hissue
        · cases hissue
      · obtain he | he := List.mem_append.1 he
        · obtain ⟨bytes, rfl, _⟩ | rfl := mem_line_events he
          · exact .inl ⟨lit, bytes, rfl, le_refl lit⟩
          · exact .inr ⟨_, rfl⟩
        · exact (hplaced e he).mono (Nat.le_add_right lit _)

/-- Settles O55: a program is its lines, with the first literal at the given address. -/
theorem assemblerKeepsLiteralsApart : Obligations.AssemblerKeepsLiteralsApart :=
  fun _ _ _ _ _ h => assembleLines_placed h

end Sys2Proof.Machine
end
